-- ==== Sys2Proof/Word.lean ====
section
/-! DEFINITION. The widths of the engine's values: 64-bit words (packets, table, hashes), 32-bit values
(`IMM`, `ident`, `blockMask`, `sampleSize`, `size`) and bytes (00_scope.md R8, R11). -/

namespace Sys2Proof

/-- A 64-bit word: a packet word, a table word, a 64-bit hash (the spec's `u64`). -/
abbrev Word := BitVec 64

/-- A 32-bit value (the spec's `u32`). -/
abbrev U32 := BitVec 32

/-- One byte of a key or of the byte view of the table. -/
abbrev Byte := BitVec 8

end Sys2Proof
end

