-- ==== Sys2Proof/Config.lean ====
section
/-! DEFINITION. The OPEN parameters of the engine (00_scope.md R6, 92_eei_decisions.md "Open parameters in
one list"): quantities the spec names and gives no value. `Params` is the record of them; the functions
of the model take it as an argument, and the machine runs with `Config.params`, whose parts have no body,
so that nothing can be proved of their values (log entries 4 to 7). -/

namespace Sys2Proof

/-- The OPEN parameters (R6). `hash64` and `idHash64` are the configuration functions of R104 and R109. -/
structure Params where
  /-- First multiplier of `spread` (R100). -/
  c1 : U32
  /-- Second multiplier of `spread` (R100). -/
  c2 : U32
  /-- Multiplier of `rehash` (R102). -/
  c3 : U32
  /-- The 64-bit mixing hash of a byte sequence under a seed (R104): total, of its arguments alone. -/
  hash64 : List Byte → Word → Word
  /-- The identity-path 64-bit hash (R109): total, of its argument alone. -/
  idHash64 : U32 → Word
  /-- The largest key length in bytes a packet may carry (R6, R80). -/
  keylenMax : Nat

/-- `C1`: OPEN, no value (D9, N1). DESIGN CHOICE: a free value, log entry 4. -/
opaque Config.c1 : U32
/-- `C2`: OPEN, no value (D9, N1). DESIGN CHOICE: a free value, log entry 4. -/
opaque Config.c2 : U32
/-- `C3`: OPEN, no value (D9, N1). DESIGN CHOICE: a free value, log entry 4. -/
opaque Config.c3 : U32
/-- `hash64`: OPEN configuration function (D10, U6). DESIGN CHOICE: a free function, log entry 5. -/
opaque Config.hash64 : List Byte → Word → Word
/-- `IdHash64`: OPEN configuration function (D12, U6). DESIGN CHOICE: a free function, log entry 6. -/
opaque Config.idHash64 : U32 → Word
/-- `KEYLEN_MAX`: OPEN (D35, N24). DESIGN CHOICE: a free value, log entry 7. -/
opaque Config.keylenMax : Nat

/-- The parameters the machine runs with: every one a free value. -/
def Config.params : Params where
  c1 := Config.c1
  c2 := Config.c2
  c3 := Config.c3
  hash64 := Config.hash64
  idHash64 := Config.idHash64
  keylenMax := Config.keylenMax

end Sys2Proof
end

