-- ==== Sys2Proof/Syntax.lean ====
section
/-! DEFINITION. The commands of the engine with their operands (30_encoding.md R79), the key operand (R76),
the packet formats (R72) and the request packet (R70). -/

namespace Sys2Proof

/-- How a key's 64-bit filter hash is formed: from its bytes or from its identity hash (R76, R108). -/
inductive KeyPath where
  /-- The bytes path, `P = 0`. -/
  | bytes
  /-- The identity path, `P = 1`. -/
  | ident
deriving DecidableEq, Repr

/-- The key operand of formats K (R76): the record `(ident, path, absent, bytes)`. -/
structure Key where
  /-- `key.ident`, the key's 32-bit identity hash, supplied by the host in `IMM`. -/
  ident : U32
  /-- `key.path`, the flag `P`. -/
  path : KeyPath
  /-- `key.absent`, the flag `A`. -/
  absent : Bool
  /-- `key.bytes`, empty unless the key has the bytes form. -/
  bytes : List Byte
deriving DecidableEq, Repr

/-- The fourteen commands of the opcode map (R79), one constructor each, with decoded operands. -/
inductive Instr where
  /-- `SPREAD x` (R101). -/
  | spread (x : U32)
  /-- `REHASH x` (R103). -/
  | rehash (x : U32)
  /-- `HASH64 seed, bytes` (R105). -/
  | hash64 (seed : Word) (bytes : List Byte)
  /-- `HASHSTR bytes` or, absent, `HASHSTR null` (R107). -/
  | hashstr (absent : Bool) (bytes : List Byte)
  /-- `HASHID x` (R110). -/
  | hashid (x : U32)
  /-- `FTEST h` (R127). -/
  | ftest (h : Word)
  /-- `FPUT h` (R129). -/
  | fput (h : Word)
  /-- `ENSURE n`; the operand is read as a signed 64-bit number (R74, R144). -/
  | ensure (ms : Word)
  /-- `INCR key` (R149). -/
  | incr (key : Key)
  /-- `FREQ key` (R148). -/
  | freq (key : Key)
  /-- `ISNINIT` (R143). -/
  | isninit
  /-- `RDSR r` (R170). -/
  | rdsr (r : U32)
  /-- `RDTBL i` (R171). -/
  | rdtbl (idx : U32)
  /-- `RDFLT q` (R172). -/
  | rdflt (q : U32)
deriving DecidableEq, Repr

/-- The fourteen assigned opcodes (R79). -/
inductive Opcode where
  | spread | rehash | hash64 | hashstr | hashid
  | ftest | fput
  | ensure | incr | freq | isninit
  | rdsr | rdtbl | rdflt
deriving DecidableEq, Repr

/-- The six packet formats (R72). -/
inductive Format where
  /-- No operand: `ISNINIT`. -/
  | z
  /-- A 32-bit immediate in the header. -/
  | i
  /-- One 64-bit operand word. -/
  | w
  /-- A key operand. -/
  | k
  /-- Bytes, or absent: `HASHSTR`. -/
  | b
  /-- A seed and bytes: `HASH64`. -/
  | s
deriving DecidableEq, Repr

/-- A request packet (R70): a non-empty list of words, the header `P[0]` and the operand words after it.
Its length is delimited by the transport, so it is the length of the list. -/
structure Packet where
  /-- `P[0]`. -/
  header : Word
  /-- `P[1], P[2], …`. -/
  operands : List Word
deriving DecidableEq, Repr

/-- The checks of R80 that a packet can fail, in their order. -/
inductive Illegal where
  /-- Check 1: `OPC` is not assigned. -/
  | opcode
  /-- Check 2: a must-be-zero bit is set. -/
  | mustBeZero
  /-- Check 3: the format forbids the header's `A`, `P` or `IMM`. -/
  | headerFields
  /-- Check 4: the `LEN` word is missing or exceeds `KEYLEN_MAX`. -/
  | lenWord
  /-- Check 5: the packet has the wrong number of words. -/
  | packetLength
  /-- Check 6: a padding byte of the last data word is not zero. -/
  | padding
deriving DecidableEq, Repr

end Sys2Proof
end

