-- ==== Sys2Proof/Decode.lean ====
section
/-! DEFINITION. Decoding of request packets (30_encoding.md R70 to R82), total and rejecting by name, and
after it the encoder written from the same tables. The byte order of words (20_memory.md R55, 00_scope.md
R11) is decided here once, in `byteOf`, `wordOfBytes` and `le8`. -/

namespace Sys2Proof

/-! ### Bytes and words -/

/-- Byte `t` of a word: bits `8t+7 : 8t` (R55, R77). -/
def byteOf (w : Word) (t : Nat) : Byte := w.extractLsb' (8 * t) 8

/-- The word whose byte `t` is `f t`, little-endian (R55). -/
def wordOfBytes (f : Nat → Byte) : Word :=
  f 7 ++ (f 6 ++ (f 5 ++ (f 4 ++ (f 3 ++ (f 2 ++ (f 1 ++ f 0))))))

/-- `le8(b, j)` (R11): the 8-byte little-endian chunk at byte `j`. Beyond the end of the sequence the
bytes are 0, which is the zero-padding of a tail chunk and of the last data word (R55, R77). -/
def le8 (bytes : List Byte) (j : Nat) : Word := wordOfBytes fun t => bytes.getD (j + t) 0

/-- `nd(LEN) = ceil(LEN / 8)`, the number of data words for `LEN` bytes (R72). -/
def nd (len : Nat) : Nat := (len + 7) / 8

/-- Byte `j` of a list of data words: `D[j div 8][8*(j mod 8)+7 : 8*(j mod 8)]` (R77). -/
def dataByte (ds : List Word) (j : Nat) : Byte := byteOf (ds.getD (j / 8) 0) (j % 8)

/-! ### The header (R71) -/

/-- `OPC = P[0][7:0]`. -/
def headerOpc (h : Word) : Byte := h.extractLsb' 0 8

/-- `A`, bit 8. -/
def headerA (h : Word) : Bool := h.getLsbD 8

/-- `P`, bit 9. -/
def headerP (h : Word) : Bool := h.getLsbD 9

/-- `MBZ`, bits 31:10. -/
def headerMbz (h : Word) : BitVec 22 := h.extractLsb' 10 22

/-- `IMM`, bits 63:32. -/
def headerImm (h : Word) : U32 := h.extractLsb' 32 32

/-! ### The opcode map (R79) -/

/-- The value of `OPC` assigned to each command. -/
def Opcode.code (op : Opcode) : Byte :=
  match op with
  | .spread => 0x01#8
  | .rehash => 0x02#8
  | .hash64 => 0x03#8
  | .hashstr => 0x04#8
  | .hashid => 0x05#8
  | .ftest => 0x10#8
  | .fput => 0x11#8
  | .ensure => 0x20#8
  | .incr => 0x21#8
  | .freq => 0x22#8
  | .isninit => 0x23#8
  | .rdsr => 0x30#8
  | .rdtbl => 0x31#8
  | .rdflt => 0x32#8

/-- The format of each command. -/
def Opcode.format (op : Opcode) : Format :=
  match op with
  | .spread => .i
  | .rehash => .i
  | .hash64 => .s
  | .hashstr => .b
  | .hashid => .i
  | .ftest => .w
  | .fput => .w
  | .ensure => .w
  | .incr => .k
  | .freq => .k
  | .isninit => .z
  | .rdsr => .i
  | .rdtbl => .i
  | .rdflt => .i

/-- The assigned opcodes in the order of the map. -/
def Opcode.all : List Opcode :=
  [.spread, .rehash, .hash64, .hashstr, .hashid, .ftest, .fput, .ensure, .incr, .freq, .isninit,
    .rdsr, .rdtbl, .rdflt]

/-- The command an `OPC` value selects; none for the 242 unassigned values (R81). -/
def Opcode.ofByte (b : Byte) : Option Opcode := Opcode.all.find? fun op => op.code == b

/-! ### The checks of R80 -/

/-- Check 3: the header constraints of the format (R72). `A` only in K and B, `P` only in K, not both, and
`IMM` zero but in I and K. -/
def headerAllowed (f : Format) (h : Word) : Bool :=
  match f with
  | .i => !headerA h && !headerP h
  | .k => !(headerA h && headerP h)
  | .b => !headerP h && headerImm h == 0
  | .z => !headerA h && !headerP h && headerImm h == 0
  | .w => !headerA h && !headerP h && headerImm h == 0
  | .s => !headerA h && !headerP h && headerImm h == 0

/-- Does the form carry bytes: format S, and K and B with `A = P = 0` (R80, check 4). -/
def carriesBytes (f : Format) (h : Word) : Bool :=
  match f with
  | .s => true
  | .k => !headerA h && !headerP h
  | .b => !headerA h && !headerP h
  | .z => false
  | .i => false
  | .w => false

/-- The operand words before the `LEN` word of a byte-carrying form: the `SEED` word in format S (R72). -/
def lenIndex (f : Format) : Nat :=
  match f with
  | .s => 1
  | .k => 0
  | .b => 0
  | .z => 0
  | .i => 0
  | .w => 0

/-- The `LEN` word of a byte-carrying form, 0 where the packet ends before it. -/
def lenOf (f : Format) (ops : List Word) : Nat := (ops.getD (lenIndex f) 0).toNat

/-- The data words `D[0], D[1], …`: everything after the `LEN` word (R72). -/
def dataWords (f : Format) (ops : List Word) : List Word := ops.drop (lenIndex f + 1)

/-- `LEN <= KEYLEN_MAX`; 0 is within every bound and is decided first (log entry 7). -/
def lenAdmitted (p : Params) (len : Nat) : Bool := len == 0 || decide (len ≤ p.keylenMax)

/-- Check 4: a byte-carrying form has its `LEN` word, and `LEN <= KEYLEN_MAX`. -/
def lenWordOk (p : Params) (f : Format) (pk : Packet) : Bool :=
  !carriesBytes f pk.header ||
    (decide (lenIndex f < pk.operands.length) && lenAdmitted p (lenOf f pk.operands))

/-- The operand words of a packet, its length less the header (R72): Z and I 0; W 1; K and B 0, or the
`LEN` word and the data words in the bytes form; S the seed, the `LEN` word and the data words. -/
def operandCount (f : Format) (pk : Packet) : Nat :=
  match f with
  | .z => 0
  | .i => 0
  | .w => 1
  | .k => if carriesBytes .k pk.header then 1 + nd (lenOf .k pk.operands) else 0
  | .b => if carriesBytes .b pk.header then 1 + nd (lenOf .b pk.operands) else 0
  | .s => 2 + nd (lenOf .s pk.operands)

/-- Check 6: the bytes of the last data word at positions `LEN mod 8 .. 7` are zero when `LEN` is no
multiple of 8: the bytes of the data words from `LEN` to the end. -/
def paddingOk (f : Format) (pk : Packet) : Bool :=
  !carriesBytes f pk.header ||
    (List.range (8 * nd (lenOf f pk.operands) - lenOf f pk.operands)).all fun u =>
      dataByte (dataWords f pk.operands) (lenOf f pk.operands + u) == 0

/-! ### Operand assembly (R73 to R77) -/

/-- The first `len` bytes of the data words (R77). -/
def unpackBytes (len : Nat) (ds : List Word) : List Byte := (List.range len).map (dataByte ds)

/-- The bytes a byte-carrying form carries; none in the other forms. -/
def bytesOf (f : Format) (pk : Packet) : List Byte :=
  if carriesBytes f pk.header then unpackBytes (lenOf f pk.operands) (dataWords f pk.operands) else []

/-- The key operand of format K (R76). -/
def keyOf (pk : Packet) : Key where
  ident := headerImm pk.header
  path := if headerP pk.header then .ident else .bytes
  absent := headerA pk.header
  bytes := bytesOf .k pk

/-- The command of a packet that has passed every check. -/
def assemble (op : Opcode) (pk : Packet) : Instr :=
  match op with
  | .spread => .spread (headerImm pk.header)
  | .rehash => .rehash (headerImm pk.header)
  | .hash64 => .hash64 (pk.operands.getD 0 0) (bytesOf .s pk)
  | .hashstr => .hashstr (headerA pk.header) (bytesOf .b pk)
  | .hashid => .hashid (headerImm pk.header)
  | .ftest => .ftest (pk.operands.getD 0 0)
  | .fput => .fput (pk.operands.getD 0 0)
  | .ensure => .ensure (pk.operands.getD 0 0)
  | .incr => .incr (keyOf pk)
  | .freq => .freq (keyOf pk)
  | .isninit => .isninit
  | .rdsr => .rdsr (headerImm pk.header)
  | .rdtbl => .rdtbl (headerImm pk.header)
  | .rdflt => .rdflt (headerImm pk.header)

/-- Decoding (R80): the six checks in their order, the first failing one named, else the command. -/
def decode (p : Params) (pk : Packet) : Except Illegal Instr :=
  match Opcode.ofByte (headerOpc pk.header) with
  | none => .error .opcode
  | some op =>
    if headerMbz pk.header != 0 then .error .mustBeZero
    else if !headerAllowed op.format pk.header then .error .headerFields
    else if !lenWordOk p op.format pk then .error .lenWord
    else if pk.operands.length != operandCount op.format pk then .error .packetLength
    else if !paddingOk op.format pk then .error .padding
    else .ok (assemble op pk)

/-! ### The encoder -/

/-- A header (R71): `IMM`, `MBZ = 0`, `P`, `A`, `OPC` from the high end down. -/
def mkHeader (op : Opcode) (a pf : Bool) (imm : U32) : Word :=
  imm ++ (0#22 ++ (BitVec.ofBool pf ++ (BitVec.ofBool a ++ op.code)))

/-- The data words of a byte sequence (R77): word `q` is `le8(bytes, 8q)`, the last one zero-padded. -/
def packBytes (bytes : List Byte) : List Word :=
  (List.range (nd bytes.length)).map fun q => le8 bytes (8 * q)

/-- A byte sequence as operand words: the `LEN` word and the data words (R72). -/
def encodeBytes (bytes : List Byte) : List Word := BitVec.ofNat 64 bytes.length :: packBytes bytes

/-- A packet of format K (R76). -/
def encodeKey (op : Opcode) (key : Key) : Packet :=
  match key.path with
  | .bytes => ⟨mkHeader op key.absent false key.ident, if key.absent then [] else encodeBytes key.bytes⟩
  | .ident => ⟨mkHeader op key.absent true key.ident, []⟩

/-- The packet of a command (R72 to R77). -/
def encode (i : Instr) : Packet :=
  match i with
  | .spread x => ⟨mkHeader .spread false false x, []⟩
  | .rehash x => ⟨mkHeader .rehash false false x, []⟩
  | .hash64 seed bytes => ⟨mkHeader .hash64 false false 0, seed :: encodeBytes bytes⟩
  | .hashstr absent bytes =>
    ⟨mkHeader .hashstr absent false 0, if absent then [] else encodeBytes bytes⟩
  | .hashid x => ⟨mkHeader .hashid false false x, []⟩
  | .ftest h => ⟨mkHeader .ftest false false 0, [h]⟩
  | .fput h => ⟨mkHeader .fput false false 0, [h]⟩
  | .ensure ms => ⟨mkHeader .ensure false false 0, [ms]⟩
  | .incr key => encodeKey .incr key
  | .freq key => encodeKey .freq key
  | .isninit => ⟨mkHeader .isninit false false 0, []⟩
  | .rdsr r => ⟨mkHeader .rdsr false false r, []⟩
  | .rdtbl idx => ⟨mkHeader .rdtbl false false idx, []⟩
  | .rdflt q => ⟨mkHeader .rdflt false false q, []⟩

/-- The opcode of a command. -/
def Instr.opcode (i : Instr) : Opcode :=
  match i with
  | .spread _ => .spread
  | .rehash _ => .rehash
  | .hash64 _ _ => .hash64
  | .hashstr _ _ => .hashstr
  | .hashid _ => .hashid
  | .ftest _ => .ftest
  | .fput _ => .fput
  | .ensure _ => .ensure
  | .incr _ => .incr
  | .freq _ => .freq
  | .isninit => .isninit
  | .rdsr _ => .rdsr
  | .rdtbl _ => .rdtbl
  | .rdflt _ => .rdflt

/-- The match value of the opcode table's row (R86): the opcode in bits 7:0. -/
def rowMatch (op : Opcode) : Word := op.code.setWidth 64

/-- The mask of the opcode table's row (R86): a 1 at every header bit with a fixed value. -/
def rowMask (f : Format) : Word :=
  match f with
  | .z => 0xFFFFFFFFFFFFFFFF#64
  | .w => 0xFFFFFFFFFFFFFFFF#64
  | .s => 0xFFFFFFFFFFFFFFFF#64
  | .i => 0x00000000FFFFFFFF#64
  | .k => 0x00000000FFFFFCFF#64
  | .b => 0xFFFFFFFFFFFFFEFF#64

/-! ### Words of the opcode table -/

/-- Word `k` of an instruction whose bits are numbered from the first word's bit 0 up, `nbits` of them
given and every higher bit 0. -/
def tableWord (nbits w k : Nat) : Word := BitVec.ofNat 64 ((w % 2 ^ nbits) >>> (64 * k))

/-- The packet of an instruction given as the opcode table gives it (log entry 17): the header, then as
many operand words as the header (and, in a byte-carrying form, the `LEN` word among the bits given)
calls for. -/
def tablePacket (nbits w : Nat) : Packet :=
  let ops := [tableWord nbits w 1, tableWord nbits w 2]
  let h := tableWord nbits w 0
  match Opcode.ofByte (headerOpc h) with
  | none => ⟨h, []⟩
  | some op => ⟨h, (List.range (operandCount op.format ⟨h, ops⟩)).map fun k => tableWord nbits w (k + 1)⟩

/-- The instruction the decoder reads from an instruction of the opcode table. -/
def decodeTableWord (nbits w : Nat) : Option Instr :=
  match decode Config.params (tablePacket nbits w) with
  | .ok i => some i
  | .error _ => none

end Sys2Proof
end

