-- ==== Sys2Proof/Machine/Constants.lean ====
section
/-! DEFINITION. The constants the spec fixes (00_scope.md R6, rows "fixed" and "decided"). -/

namespace Sys2Proof.Machine

/-- `CTR_MAX`: the saturation value of a counter (R6, R25). -/
def ctrMax : Nat := 15

/-- `DEPTH`: counters read or incremented per key (R6). -/
def depth : Nat := 4

/-- `BLOCK_WORDS`: words per block (R6). -/
def blockWords : Nat := 8

/-- `TBL_MIN`: minimum table length in words (R6, R146). -/
def tblMin : Nat := 8

/-- `CAP_MAX = 2^30`: the clamp applied to the operand of `ENSURE` (R6, R145; log entry 14). -/
def capMax : Nat := 2 ^ 30

/-- `SAMPLE_FACTOR` (R6, R147). -/
def sampleFactor : Nat := 10

/-- `SAMPLE_ZERO`: the sample size of capacity 0 (R6, R147, conflict C1). -/
def sampleZero : U32 := 10

/-- `SEED_STR = 305441741 = 0x1234ABCD`, zero-extended (R6, R106). -/
def seedStr : Word := 305441741

/-- `AGE_ODD_MASK`: the low bit of every counter (R6, R150). -/
def ageOddMask : Word := 0x1111111111111111

/-- `AGE_KEEP_MASK`: the low three bits of every counter (R6, R150). -/
def ageKeepMask : Word := 0x7777777777777777

/-- The numerator of `KAPPA = ln(50) / (ln 2)^2` as the digits of R121 over `kappaDen`. R161: a rational
approximation with error below 1.6e-20 gives the exact `fltM`; this one is within 1e-27 (log entry 8). -/
def kappaNum : Nat := 8142363336478475665022069775

/-- The denominator of the approximation of `KAPPA`. -/
def kappaDen : Nat := 10 ^ 27

/-- `fltK` for `FPP = 1/50`: 6 for every capacity (R122, R161). -/
def filterProbes : Nat := 6

end Sys2Proof.Machine
end

