-- ==== Sys2Proof/Machine/Mixing.lean ====
section
/-! DEFINITION. The stateless functions of the Mixing Hash (40_hash.md R100, R102, R104, R106, R108, R109) and
the reference values of the OPEN parameters (R6, R104, R109), which only tests and conditional statements
use: the machine runs with `Config.params`. -/

namespace Sys2Proof.Machine

/-- `spread` (R100): three xor-shifts around two multiplications, on 32 bits. -/
def spread (p : Params) (x : U32) : U32 :=
  let x1 := x ^^^ (x >>> 17)
  let x2 := x1 * p.c1
  let x3 := x2 ^^^ (x2 >>> 11)
  let x4 := x3 * p.c2
  x4 ^^^ (x4 >>> 15)

/-- `rehash` (R102): one multiplication and one xor-shift, on 32 bits. -/
def rehash (p : Params) (x : U32) : U32 :=
  let y1 := x * p.c3
  y1 ^^^ (y1 >>> 14)

/-- `hashStr` (R106): 0 for the absent key, else `hash64` under the fixed seed. -/
def hashStr (p : Params) (absent : Bool) (bytes : List Byte) : Word :=
  if absent then 0 else p.hash64 bytes seedStr

/-- `KeyHash64` (R108): the 64-bit hash the sketch hands to the filter. -/
def keyHash64 (p : Params) (key : Key) : Word :=
  match key.path with
  | .bytes => hashStr p key.absent key.bytes
  | .ident => p.idHash64 key.ident

/-! ### Reference definitions of the OPEN functions -/

/-- One full chunk of the reference `hash64` (R104): `k` mixed, then folded into `h`. -/
def mixChunk (hm : Word) (hr : Nat) (h k : Word) : Word :=
  let k1 := k * hm
  let k2 := k1 ^^^ (k1 >>> hr)
  (h ^^^ (k2 * hm)) * hm

/-- The finish of the reference `hash64` (R104): xor-shift, multiply, xor-shift. -/
def finishHash (hm : Word) (hr : Nat) (h : Word) : Word :=
  let h1 := (h ^^^ (h >>> hr)) * hm
  h1 ^^^ (h1 >>> hr)

/-- The reference definition of `hash64` for given `HM` and `HR` (R104). -/
def hash64Reference (hm : Word) (hr : Nat) (bytes : List Byte) (seed : Word) : Word :=
  let len := bytes.length
  let nfull := len / 8
  let h0 := seed ^^^ (BitVec.ofNat 64 len * hm)
  let h1 := (List.range nfull).foldl (fun h j => mixChunk hm hr h (le8 bytes (8 * j))) h0
  let h2 := if len % 8 = 0 then h1 else (h1 ^^^ le8 bytes (8 * nfull)) * hm
  finishHash hm hr h2

/-- `le4(x)` (00_scope.md R11): the four bytes of a `u32`, least significant first. -/
def le4 (x : U32) : List Byte := (List.range 4).map fun t => x.extractLsb' (8 * t) 8

/-- The reference definition of `IdHash64` over a given `hash64` (R109). -/
def idHash64Reference (hash64 : List Byte → Word → Word) (x : U32) : Word := hash64 (le4 x) seedStr

/-- The reference values of the OPEN parameters (R6; from general knowledge, the spec says, not from its
source). No definition of the machine uses them. -/
def referenceParams : Params where
  c1 := 0xED5AD4BB
  c2 := 0xAC4C1B51
  c3 := 0x31848BAB
  hash64 := hash64Reference 0xC6A4A7935BD1E995 47
  idHash64 := idHash64Reference (hash64Reference 0xC6A4A7935BD1E995 47)
  keylenMax := 2 ^ 31 - 1

end Sys2Proof.Machine
end

