-- ==== Sys2Proof/Machine/State.lean ====
section
/-! DEFINITION. The engine's state as plain data (10_state.md R23 to R29), its two memories, the model's own
record of the host's side (the events not yet reached and the responses returned), the state after reset
(R40, R200), and the two ways a step could stop. -/

namespace Sys2Proof.Machine

/-- The table space in its byte view (20_memory.md R50): the bytes that are not zero, as (byte address,
byte) pairs with addresses strictly rising (`Memory.wf`, log entry 9). An unlisted byte reads as zero, the
value the table is created with (42_sketch.md R146). -/
abbrev Memory := List Host.Cell

/-- The filter's bit space (20_memory.md R51): the positions of the bits that are 1, strictly rising
(`BitArray.wf`, log entry 10). A bit that is not listed is 0, the value the array is created with (R125). -/
abbrev BitArray := List Nat

/-- What the host does to the engine (70_reset_and_hazards.md R210), one event each. -/
inductive Input where
  /-- A request packet arrives on the command port and is executed to completion. -/
  | packet (pk : Packet)
  /-- The reset input is asserted while the engine is idle (R201). -/
  | reset
  /-- The reset input is asserted while this packet's command is in progress, and cuts it off (R201). -/
  | resetDuring (pk : Packet)
deriving DecidableEq, Repr

/-- The status codes of a response (60_exceptions.md R181). -/
inductive Status where
  /-- Code 0, success. -/
  | ok
  /-- Code 1, `ERR_ILLEGAL`: the packet is no well-formed command. -/
  | illegal
  /-- Code 2, `ERR_ARG`: `ENSURE` with a negative operand. -/
  | arg
  /-- Code 3, `ERR_RANGE`: a read-out index outside its space. -/
  | range
deriving DecidableEq, Repr

/-- A response packet: its two words (30_encoding.md R78). -/
structure Response where
  /-- `Q[0] = STATUS`. -/
  status : Word
  /-- `Q[1] = VALUE`. -/
  value : Word
deriving DecidableEq, Repr

/-- Everything the spec gives the engine, and the model's own two fields for the host's side. -/
structure State where
  /-- `init` (R23): false before the first successful `ENSURE`. -/
  init : Bool
  /-- `tableLen` (R24), in words. -/
  tableLen : Nat
  /-- `T` (R24, R25, R50), in its byte view. -/
  table : Memory
  /-- `blockMask` (R26). -/
  blockMask : U32
  /-- `sampleSize` (R27). -/
  sampleSize : U32
  /-- `unbounded` (R27). -/
  unbounded : Bool
  /-- `size` (R28). -/
  size : U32
  /-- `fltInit` (R29). -/
  fltInit : Bool
  /-- `fltN` (R29), the expected-insertion count the filter was built for. -/
  fltN : Nat
  /-- `fltM` (R29), the length of the bit array. -/
  fltM : Nat
  /-- `fltK` (R29), the number of probes. -/
  fltK : Nat
  /-- `B` (R29, R51). -/
  bits : BitArray
  /-- The model's own: the host's events not yet reached, first one first (log entry 1). -/
  inputs : List Input
  /-- The model's own: the responses returned so far, first one first (log entry 2). -/
  responses : List Response
deriving DecidableEq, Repr

/-- The machine right after reset (R40, R200): uninitialised, no table, no bit array, every scalar 0. The
model's own fields are empty (log entries 1 and 2). -/
def State.reset : State where
  init := false
  tableLen := 0
  table := []
  blockMask := 0
  sampleSize := 0
  unbounded := false
  size := 0
  fltInit := false
  fltN := 0
  fltM := 0
  fltK := 0
  bits := []
  inputs := []
  responses := []

/-- The ways a step could stop with a fault. The engine itself has none (60_exceptions.md R185, R188: its
errors are responses, after which it goes on); these name an access to storage that the spec says does not
exist, which no command makes in a state that meets the invariants of R39 (log entry 11). -/
inductive Fault where
  /-- Raised by `FREQ` and `INCR`: a counter's word index is at or beyond `tableLen` (R24, R39 item 6).
  Safe: the model stops where the spec gives no meaning. -/
  | tableBounds
  /-- Raised by `FTEST`, `FPUT`, `FREQ` and `INCR`: a probe position is at or beyond `fltM` (R29, R124). It
  takes a built filter with `fltM = 0`. Safe: the model stops where the spec gives no meaning. -/
  | filterBounds
deriving DecidableEq, Repr

/-- The ways a step could be refused. No command of this engine is. -/
inductive Refusal where
  /-- Raised by an arm of `exec` whose instruction has no meaning yet; there is none. Safe. -/
  | notModelled (mnemonic : String)
deriving DecidableEq, Repr

end Sys2Proof.Machine
end

