-- ==== Sys2Proof/Machine/Operands.lean ====
section
/-! DEFINITION. How operands select storage: the filter's probe positions (41_filter.md R124), a key's four
counters (42_sketch.md R142), and the sizes an `ENSURE` operand calls for (R120 to R122, R145 to R147). -/

namespace Sys2Proof.Machine

/-- The probe positions of a hash in a filter of `m` bits and `k` probes (R124): `(h1 + i * h2) mod m` for
`i = 0 .. k-1`, on exact naturals, `h1` the low and `h2` the high half. No secondary increment (R131). -/
def positions (m k : Nat) (h : Word) : List Nat :=
  (List.range k).map fun i => ((h.extractLsb' 0 32).toNat + i * (h.extractLsb' 32 32).toNat) % m

/-- One counter of a key: a word of the table and a counter in that word (R142). -/
structure Slot where
  /-- The index of the table word. -/
  word : Nat
  /-- The counter in the word, 0 to 15. -/
  ctr : Nat
deriving DecidableEq, Repr

/-- Slot `i` of a key (R142), from byte `i` of the counter hash and the key's block. -/
def slotAt (counterHash : U32) (block i : Nat) : Slot :=
  let h : Byte := counterHash.extractLsb' (8 * i) 8
  { word := block + (h.extractLsb' 0 1).toNat + 2 * i, ctr := (h.extractLsb' 1 4).toNat }

/-- The first word of the block a block hash selects (R142). -/
def blockBase (blockHash blockMask : U32) : Nat := (blockHash &&& blockMask).toNat * blockWords

/-- `Slots` (R142): the four counters of a key. -/
def slots (p : Params) (ident blockMask : U32) : List Slot :=
  let blockHash := spread p ident
  let counterHash := rehash p blockHash
  (List.range depth).map (slotAt counterHash (blockBase blockHash blockMask))

/-- `npot` (R146): the least power of two not below the argument, 1 for 0 and 1. -/
def npot (x : Nat) : Nat := if x ≤ 1 then 1 else 2 ^ (Nat.log2 (x - 1) + 1)

/-- The table length for a capacity (R146). -/
def tableLenFor (cap : Nat) : Nat := max (npot cap) tblMin

/-- `SampleSize` (R147): the product in 32-bit two's complement; a non-positive one is unbounded. -/
def sampleSizeFor (cap : Nat) : U32 × Bool :=
  if cap = 0 then (sampleZero, false)
  else
    let v := BitVec.ofNat 32 (sampleFactor * cap)
    if v.toInt ≤ 0 then (0, true) else (v, false)

/-- The bit-array length for a capacity with `FPP = 1/50` (R121, R161): `floor(max(n, 1) * KAPPA) + 1`. -/
def filterLength (n : Nat) : Nat := max n 1 * kappaNum / kappaDen + 1

/-- `FilterGeometry(n, FPP)` (R120 to R122, R161): the length and the number of probes. -/
def filterGeometry (n : Nat) : Nat × Nat := (filterLength n, filterProbes)

end Sys2Proof.Machine
end

