-- ==== Sys2Proof/Machine/Ops.lean ====
section
/-! DEFINITION. The shared operations of the engine: the table's memory by bytes and by words (20_memory.md
R50, R57), the packed counters of a word (44_laws.md R162), the filter's bits (R51, R124 to R128), answering
a command and ending it with an error (60_exceptions.md R180), the reset event (R201), and the internal
operations `FilterEnsure`, the build of the table and `Age` (R125, R146, R150). -/

namespace Sys2Proof.Machine

/-! ### The table space, by bytes -/

/-- What an unlisted byte of the table reads as: zero, the content it is created with (R40, R146). -/
def Memory.unlisted : Byte := 0

/-- One byte of the table. -/
def Memory.read (m : Memory) (a : Nat) : Byte :=
  match m with
  | [] => Memory.unlisted
  | c :: rest => if c.1 = a then c.2 else Memory.read rest a

/-- Writes one byte of the table, keeping the canonical form: a byte equal to an unlisted one is not
listed. -/
def Memory.write (m : Memory) (a : Nat) (v : Byte) : Memory :=
  match m with
  | [] => if v = Memory.unlisted then [] else [(a, v)]
  | c :: rest =>
    if a < c.1 then (if v = Memory.unlisted then c :: rest else (a, v) :: c :: rest)
    else if c.1 = a then (if v = Memory.unlisted then rest else (a, v) :: rest)
    else c :: Memory.write rest a v

/-- The canonical form: addresses strictly rising, and no listed byte equal to an unlisted one. -/
def Memory.wf (m : Memory) : Bool :=
  decide (m.Pairwise fun c d => c.1 < d.1) && m.all fun c => c.2 != Memory.unlisted

/-! ### The table space, by words -/

/-- `T[i] = MemRead(8*i, 8)`, little-endian (R50). -/
def Memory.readWord (m : Memory) (i : Nat) : Word := wordOfBytes fun t => m.read (8 * i + t)

/-- `T[i] <- v`, that is `MemWrite(8*i, 8, v)` (R50). -/
def Memory.writeWord (m : Memory) (i : Nat) (v : Word) : Memory :=
  (List.range 8).foldl (fun m t => m.write (8 * i + t) (byteOf v t)) m

/-- The words that have a listed byte. In the canonical form every other word is zero. -/
def Memory.listedWords (m : Memory) : List Nat := (m.map fun c => c.1 / 8).dedup

/-! ### Packed counters (R141, R162) -/

/-- `Nib(w, c) = w[4c+3 : 4c]` (R141). -/
def nib (w : Word) (c : Nat) : BitVec 4 := w.extractLsb' (4 * c) 4

/-- The value of counter `c` of a word. -/
def counter (w : Word) (c : Nat) : Nat := (nib w c).toNat

/-- Saturating add of 1 to lane `c` (R162, R153 item 4): nothing at 15. -/
def addLane (w : Word) (c : Nat) : Word :=
  if counter w c < ctrMax then w + (1#64 <<< (4 * c)) else w

/-- All lanes halved (R150, R162). -/
def halveLanes (w : Word) : Word := (w >>> 1) &&& ageKeepMask

/-- The number of one bits of a word (R9). -/
def popcount (w : Word) : Nat := (List.range 64).countP fun b => w.getLsbD b

/-- The number of odd lanes (R150, R162). -/
def oddLanes (w : Word) : Nat := popcount (w &&& ageOddMask)

/-! ### Answering (30_encoding.md R78, 60_exceptions.md R180) -/

/-- The code of a status (R181). -/
def Status.code (st : Status) : Byte :=
  match st with
  | .ok => 0
  | .illegal => 1
  | .arg => 2
  | .range => 3

/-- `Q[0]` (R78): the code in bits 7:0, bits 63:8 zero. -/
def Status.word (st : Status) : Word := st.code.setWidth 64

/-- Returns the response to the command in hand: one response packet, after those already returned. -/
def State.respond (s : State) (st : Status) (value : Word) : State :=
  { s with responses := s.responses ++ [⟨st.word, value⟩] }

/-- `respond(v)` (R10): the command ends with status `OK` and value `v`. -/
def State.answer (s : State) (value : Word) : State := s.respond .ok value

/-- `raise Error(code)` (R10, R180): the engine's one exceptional outcome. The command ends with the code and
value 0, and no state of the engine changes. Nothing is saved, no mode changes and there is nothing to return
from (R188, R189): the next packet is the next command. -/
def State.raiseError (s : State) (st : Status) : State := s.respond st 0

/-- A boolean result (R78): 1 for true, 0 for false. -/
def boolWord (b : Bool) : Word := if b then 1 else 0

/-! ### Reset (R200, R201) -/

/-- The reset input: the engine takes the state of R200, without a response. What the host has not sent yet and
the responses it already holds are not engine state and stay (log entry 3). -/
def State.hardReset (s : State) : State :=
  { State.reset with inputs := s.inputs, responses := s.responses }

/-! ### The filter (R51, R124 to R128) -/

/-- `B[j] = 1`. -/
def BitArray.isSet (b : BitArray) (j : Nat) : Bool := b.contains j

/-- `B[j] <- 1`, keeping the positions strictly rising. -/
def BitArray.set (b : BitArray) (j : Nat) : BitArray :=
  match b with
  | [] => [j]
  | a :: rest => if j < a then j :: a :: rest else if j = a then a :: rest else a :: BitArray.set rest j

/-- `B[j] <- 1` for every `j` of a list, in its order. -/
def BitArray.setAll (b : BitArray) (js : List Nat) : BitArray := js.foldl BitArray.set b

/-- The canonical form: positions strictly rising. -/
def BitArray.wf (b : BitArray) : Bool := decide (b.Pairwise (· < ·))

/-- The probe positions of a hash in the engine's filter (R124). -/
def State.probes (s : State) (h : Word) : List Nat := positions s.fltM s.fltK h

/-- Every probe lies in the bit array, or the filter is not built and not consulted. False only for a built
filter with `fltM = 0`, which R39 item 4 excludes. -/
def State.probesInside (s : State) (h : Word) : Bool :=
  !s.fltInit || (s.probes h).all fun j => decide (j < s.fltM)

/-- `mightContain` (R126): false before the filter is built, else whether every probed bit is set. -/
def State.mightContain (s : State) (h : Word) : Bool :=
  s.fltInit && (s.probes h).all s.bits.isSet

/-- The result of `put` (R128), evaluated before any write: whether some probed bit is unset. -/
def State.newlyObserved (s : State) (h : Word) : Bool :=
  s.fltInit && (s.probes h).any fun j => !s.bits.isSet j

/-- The writes of `put` (R128): every probed bit set; nothing before the filter is built. -/
def State.putBits (s : State) (h : Word) : State :=
  if s.fltInit then { s with bits := s.bits.setAll (s.probes h) } else s

/-- The 64 filter bits of group `q` (R51, R172): bit `64q+t` at bit `t`, 0 at and beyond `fltM`. -/
def State.filterGroup (s : State) (q : Nat) : Word :=
  (List.range 64).foldl
    (fun v t => if decide (64 * q + t < s.fltM) && s.bits.isSet (64 * q + t) then v ||| (1#64 <<< t) else v) 0

/-! ### Sizing (R125, R144 to R147) -/

/-- `FilterEnsure(n, FPP)` (R125): growth only; else a new, zeroed bit array of the geometry for `n`. -/
def State.filterEnsure (s : State) (n : Nat) : State :=
  if s.fltInit && decide (n ≤ s.fltN) then s
  else
    { s with
      fltM := (filterGeometry n).1
      fltK := (filterGeometry n).2
      fltN := n
      bits := []
      fltInit := true }

/-- The build of the table (R144, R146): a new, zeroed table, its mask and sample size, `size` 0. -/
def State.buildTable (s : State) (cap : Nat) : State :=
  { s with
    tableLen := tableLenFor cap
    table := []
    sampleSize := (sampleSizeFor cap).1
    unbounded := (sampleSizeFor cap).2
    blockMask := BitVec.ofNat 32 (tableLenFor cap / blockWords - 1)
    size := 0
    init := true }

/-- The cover test (R145): an initialised engine whose table is at least as long as the capacity. -/
def State.covers (s : State) (cap : Nat) : Bool := s.init && decide (cap ≤ s.tableLen)

/-- `ENSURE` of a non-negative capacity (R144; R153 item 6): the clamp, the cover test, the build. -/
def State.ensureCapacity (s : State) (ms : Nat) : State :=
  if s.covers (min ms capMax) then s
  else (s.filterEnsure (min ms capMax)).buildTable (min ms capMax)

/-! ### Counting and aging (R148 to R150) -/

/-- Every counter word lies in the table (R39 item 6). -/
def State.slotsInside (s : State) (sl : List Slot) : Bool :=
  sl.all fun x => decide (x.word < s.tableLen)

/-- The counters a key reads (R148, step 5). -/
def State.readings (s : State) (sl : List Slot) : List Nat :=
  sl.map fun x => counter (s.table.readWord x.word) x.ctr

/-- The least of the readings (R148, step 6); a counter is at most 15. -/
def minReading (rs : List Nat) : Nat := rs.foldr min ctrMax

/-- One saturating increment of `INCR` (R149): the counter if it is below 15, recording that it changed. -/
def bumpSlot (acc : Memory × Bool) (x : Slot) : Memory × Bool :=
  if counter (acc.1.readWord x.word) x.ctr < ctrMax then
    (acc.1.writeWord x.word (addLane (acc.1.readWord x.word) x.ctr), true)
  else acc

/-- The four increments of `INCR`, and whether any of them changed a counter (R149). -/
def bumpAll (m : Memory) (sl : List Slot) : Memory × Bool := sl.foldl bumpSlot (m, false)

/-- The number of odd counters of the table (R150). Words with no listed byte have none. -/
def Memory.oddCounters (m : Memory) : Nat := (m.listedWords.map fun j => oddLanes (m.readWord j)).sum

/-- Every word of the table halved lane by lane (R150). A word with no listed byte is zero and stays zero
(log entry 13). -/
def Memory.halveAll (m : Memory) : Memory :=
  m.listedWords.foldl (fun m j => m.writeWord j (halveLanes (m.readWord j))) m

/-- `Age` (R150): every counter halved, `size` reduced by a quarter of the odd counters and halved. The
filter is untouched (R151; R153 item 5). -/
def State.age (s : State) : State :=
  { s with
    table := s.table.halveAll
    size := BitVec.ofNat 32 ((s.size.toNat - s.table.oddCounters / 4) / 2) }

/-- `size` after an accepted increment (R149): plus one, stopping at `2^32 - 1`. -/
def nextSize (size : U32) : U32 := if size.toNat < 2 ^ 32 - 1 then size + 1 else size

/-- What an accepted increment does to `size`, with the aging it may trigger (R149, step 5). -/
def State.accept (s : State) : State :=
  let s1 := { s with size := nextSize s.size }
  if !s1.unbounded && s1.size == s1.sampleSize then s1.age else s1

/-- Steps 4 and 5 of `INCR` on the four counters of a key (R149). -/
def State.count (s : State) (sl : List Slot) : State :=
  let r := bumpAll s.table sl
  let s1 := { s with table := r.1 }
  if r.2 then s1.accept else s1

end Sys2Proof.Machine
end

