-- ==== Sys2Proof/Machine/FilterCommands.lean ====
section
/-! DEFINITION. The Doorkeeper Filter commands (41_filter.md). -/

namespace Sys2Proof.Machine

/-- `FTEST h` (R127): 1 if every probed bit is set, else 0; 0 before the filter is built. -/
def execFtest (h : Word) (s : State) : Host.Outcome State Fault Refusal :=
  if s.probesInside h then .next (s.answer (boolWord (s.mightContain h))) else .fault .filterBounds

/-- `FPUT h` (R129): sets every probed bit, answers 1 if one of them was unset; no-op answering 0 before the
filter is built. -/
def execFput (h : Word) (s : State) : Host.Outcome State Fault Refusal :=
  if s.probesInside h then .next ((s.putBits h).answer (boolWord (s.newlyObserved h)))
  else .fault .filterBounds

end Sys2Proof.Machine
end

