-- ==== Sys2Proof/Machine/HashCommands.lean ====
section
/-! DEFINITION. The Mixing Hash commands (40_hash.md): they read and write no engine state, answer `OK`, and
work before `ENSURE`. -/

namespace Sys2Proof.Machine

/-- `SPREAD x` (R101). -/
def execSpread (x : U32) (s : State) : Host.Outcome State Fault Refusal :=
  .next (s.answer ((spread Config.params x).setWidth 64))

/-- `REHASH x` (R103). -/
def execRehash (x : U32) (s : State) : Host.Outcome State Fault Refusal :=
  .next (s.answer ((rehash Config.params x).setWidth 64))

/-- `HASH64 seed, bytes` (R105). -/
def execHash64 (seed : Word) (bytes : List Byte) (s : State) : Host.Outcome State Fault Refusal :=
  .next (s.answer (Config.params.hash64 bytes seed))

/-- `HASHSTR bytes` and `HASHSTR null` (R107). -/
def execHashstr (absent : Bool) (bytes : List Byte) (s : State) : Host.Outcome State Fault Refusal :=
  .next (s.answer (hashStr Config.params absent bytes))

/-- `HASHID x` (R110). -/
def execHashid (x : U32) (s : State) : Host.Outcome State Fault Refusal :=
  .next (s.answer (Config.params.idHash64 x))

end Sys2Proof.Machine
end

