-- ==== Sys2Proof/Machine/SketchCommands.lean ====
section
/-! DEFINITION. The Frequency Sketch commands (42_sketch.md). `frequency` and `increment` are written for any
parameters; the commands use `Config.params`. -/

namespace Sys2Proof.Machine

/-- `FREQ key` (R148), the document's steps 1 to 6; R153 items 1 and 2 are about it. -/
def frequency (p : Params) (key : Key) (s : State) : Host.Outcome State Fault Refusal :=
  if !s.init then .next (s.answer 0)
  else if !s.probesInside (keyHash64 p key) then .fault .filterBounds
  else if !s.mightContain (keyHash64 p key) then .next (s.answer 0)
  else if !s.slotsInside (slots p key.ident s.blockMask) then .fault .tableBounds
  else
    .next (s.answer
      (BitVec.ofNat 64 (minReading (s.readings (slots p key.ident s.blockMask)) + 1)))

/-- `INCR key` (R149), the document's steps 1 to 5: doorkeeping (R153 item 3) is its third. -/
def increment (p : Params) (key : Key) (s : State) : Host.Outcome State Fault Refusal :=
  if !s.init then .next (s.answer 0)
  else if !s.probesInside (keyHash64 p key) then .fault .filterBounds
  else if s.newlyObserved (keyHash64 p key) then .next ((s.putBits (keyHash64 p key)).answer 0)
  else if !s.slotsInside (slots p key.ident s.blockMask) then .fault .tableBounds
  else .next (((s.putBits (keyHash64 p key)).count (slots p key.ident s.blockMask)).answer 0)

/-- `ENSURE n` (R144): a negative operand raises `ERR_ARG` (R183); else the capacity is ensured. -/
def execEnsure (ms : Word) (s : State) : Host.Outcome State Fault Refusal :=
  if ms.toInt < 0 then .next (s.raiseError .arg) else .next ((s.ensureCapacity ms.toNat).answer 0)

/-- `INCR key` (R149). -/
def execIncr (key : Key) (s : State) : Host.Outcome State Fault Refusal := increment Config.params key s

/-- `FREQ key` (R148). -/
def execFreq (key : Key) (s : State) : Host.Outcome State Fault Refusal := frequency Config.params key s

/-- `ISNINIT` (R143): 1 while the sketch has no table. -/
def execIsninit (s : State) : Host.Outcome State Fault Refusal := .next (s.answer (boolWord (!s.init)))

end Sys2Proof.Machine
end

