-- ==== Sys2Proof/Machine/Flags.lean ====
section
/-! DEFINITION. The status registers (10_state.md R30 to R38): read-only views of the scalar state. The only
flags of the engine are the three bits of `STATUS` (R22, R31); no command writes them directly. -/

namespace Sys2Proof.Machine

/-- `SR[0] = STATUS` (R31): `INIT` bit 0, `UNB` bit 1, `FINIT` bit 2, bits 63:3 zero. -/
def State.statusWord (s : State) : Word :=
  0#61 ++ (BitVec.ofBool s.fltInit ++ (BitVec.ofBool s.unbounded ++ BitVec.ofBool s.init))

/-- `SR[n]` for `n` 0 to 7 (R31 to R38); none beyond (R30). -/
def State.statusRegister (s : State) (n : Nat) : Option Word :=
  match n with
  | 0 => some s.statusWord
  | 1 => some (BitVec.ofNat 64 s.tableLen)
  | 2 => some (s.blockMask.setWidth 64)
  | 3 => some (s.sampleSize.setWidth 64)
  | 4 => some (s.size.setWidth 64)
  | 5 => some (BitVec.ofNat 64 s.fltM)
  | 6 => some (BitVec.ofNat 64 s.fltK)
  | 7 => some (BitVec.ofNat 64 s.fltN)
  | _ + 8 => none

end Sys2Proof.Machine
end

