-- ==== Sys2Proof/Machine/StatusCommands.lean ====
section
/-! DEFINITION. The status and read-out commands (43_status.md): read-only, with `ERR_RANGE` for an index outside
the space read (R184). -/

namespace Sys2Proof.Machine

/-- `RDSR r` (R170). -/
def execRdsr (r : U32) (s : State) : Host.Outcome State Fault Refusal :=
  match s.statusRegister r.toNat with
  | some v => .next (s.answer v)
  | none => .next (s.raiseError .range)

/-- `RDTBL i` (R171). -/
def execRdtbl (idx : U32) (s : State) : Host.Outcome State Fault Refusal :=
  if !s.init || decide (s.tableLen ≤ idx.toNat) then .next (s.raiseError .range)
  else .next (s.answer (s.table.readWord idx.toNat))

/-- `RDFLT q` (R172). -/
def execRdflt (q : U32) (s : State) : Host.Outcome State Fault Refusal :=
  if !s.fltInit || decide (s.fltM ≤ 64 * q.toNat) then .next (s.raiseError .range)
  else .next (s.answer (s.filterGroup q.toNat))

end Sys2Proof.Machine
end

