-- ==== Sys2Proof/Machine/Dispatch.lean ====
section
/-! DEFINITION. One arm per command (30_encoding.md R79), each a direct call of its meaning. -/

namespace Sys2Proof.Machine

def exec (i : Instr) (s : State) : Host.Outcome State Fault Refusal :=
  match i with
  | .spread x => Sys2Proof.Machine.execSpread x s
  | .rehash x => Sys2Proof.Machine.execRehash x s
  | .hash64 seed bytes => Sys2Proof.Machine.execHash64 seed bytes s
  | .hashstr absent bytes => Sys2Proof.Machine.execHashstr absent bytes s
  | .hashid x => Sys2Proof.Machine.execHashid x s
  | .ftest h => Sys2Proof.Machine.execFtest h s
  | .fput h => Sys2Proof.Machine.execFput h s
  | .ensure ms => Sys2Proof.Machine.execEnsure ms s
  | .incr key => Sys2Proof.Machine.execIncr key s
  | .freq key => Sys2Proof.Machine.execFreq key s
  | .isninit => Sys2Proof.Machine.execIsninit s
  | .rdsr r => Sys2Proof.Machine.execRdsr r s
  | .rdtbl idx => Sys2Proof.Machine.execRdtbl idx s
  | .rdflt q => Sys2Proof.Machine.execRdflt q s

end Sys2Proof.Machine
end

