-- ==== Sys2Proof/Machine/Port.lean ====
section
/-! DEFINITION. The command port and the reset input (70_reset_and_hazards.md R201, R210): what the engine does
with each event of the host. The step calls these. -/

namespace Sys2Proof.Machine

/-- The state with the event in hand taken off the port. -/
def State.take (s : State) (rest : List Input) : State := { s with inputs := rest }

/-- A packet the decoder rejects (R80, R182): `ERR_ILLEGAL`, no engine state changes. -/
def State.rejectPacket (s : State) : State := s.raiseError .illegal

/-- The decoder of the engine (R80), for its own `KEYLEN_MAX`. -/
def decodePacket (pk : Packet) : Option Instr :=
  match decode Config.params pk with
  | .ok i => some i
  | .error _ => none

/-- The host sends a packet that is executed before everything it has sent so far. -/
def State.sendFirst (s : State) (pk : Packet) : State := { s with inputs := .packet pk :: s.inputs }

end Sys2Proof.Machine
end

