-- ==== Sys2Proof/Machine/Step.lean ====
section
/-! DEFINITION. One step of the machine: the engine takes the host's next event. -/

namespace Sys2Proof.Machine

/-- One step (20_memory.md R58, R60; R210). A packet is decoded and its command executed to completion, or answered
`ERR_ILLEGAL`; a reset takes effect, discarding the command it cuts off, with no response; with nothing on
the port the engine is idle and holds its state (60_exceptions.md R192, R200). -/
def step (s : State) : Host.Outcome State Fault Refusal :=
  match s.inputs with
  | [] => .next s
  | .packet pk :: rest =>
    match decodePacket pk with
    | some i => exec i (s.take rest)
    | none => .next (s.take rest).rejectPacket
  | .reset :: rest => .next (s.take rest).hardReset
  | .resetDuring _ :: rest => .next (s.take rest).hardReset

/-- The state in which the host sends the given instruction next (log entry 17): its packet stands first on the
port, so the very next step decodes and runs it. -/
def State.withFetchWord (s : State) (nbits w : Nat) : State := s.sendFirst (tablePacket nbits w)

end Sys2Proof.Machine
end

