-- ==== Sys2Proof/Laws/Words.lean ====
section
/-! SUPPORT. Bytes of a word and the lanes of a table word: what each shared operation on words does, said once
(20_memory.md R55, 42_sketch.md R141, R150, 44_laws.md R162). -/

namespace Sys2Proof

theorem byteOf_getLsbD (w : Word) (t b : Nat) (hb : b < 8) : (byteOf w t).getLsbD b = w.getLsbD (8 * t + b) := by
  simp [byteOf, hb]

theorem wordOfBytes_getLsbD (f : Nat → Byte) (t b : Nat) (ht : t < 8) (hb : b < 8) :
    (wordOfBytes f).getLsbD (8 * t + b) = (f t).getLsbD b := by
  unfold wordOfBytes
  simp only [BitVec.getLsbD_append]
  interval_cases t <;> simp (disch := omega) only [Nat.mul_zero, Nat.zero_add, if_pos, if_neg] <;>
    congr 1 <;> omega

/-- A word is its eight bytes. -/
theorem byteOf_wordOfBytes (f : Nat → Byte) (t : Nat) (ht : t < 8) : byteOf (wordOfBytes f) t = f t := by
  apply BitVec.eq_of_getLsbD_eq
  intro b hb
  rw [byteOf_getLsbD _ _ _ hb, wordOfBytes_getLsbD _ _ _ ht hb]

theorem word_ext_bytes {v w : Word} (h : ∀ t < 8, byteOf v t = byteOf w t) : v = w := by
  apply BitVec.eq_of_getLsbD_eq
  intro i hi
  have h1 := byteOf_getLsbD v (i / 8) (i % 8) (by omega)
  have h2 := byteOf_getLsbD w (i / 8) (i % 8) (by omega)
  rw [Nat.div_add_mod] at h1 h2
  rw [← h1, ← h2, h (i / 8) (by omega)]

theorem wordOfBytes_byteOf (w : Word) : wordOfBytes (byteOf w) = w :=
  word_ext_bytes fun t ht => byteOf_wordOfBytes _ t ht

theorem wordOfBytes_congr {f g : Nat → Byte} (h : ∀ t < 8, f t = g t) : wordOfBytes f = wordOfBytes g :=
  word_ext_bytes fun t ht => by rw [byteOf_wordOfBytes f t ht, byteOf_wordOfBytes g t ht, h t ht]

@[simp] theorem byteOf_zero (t : Nat) : byteOf 0 t = 0 := by
  apply BitVec.eq_of_getLsbD_eq
  intro b hb
  simp [byteOf_getLsbD _ _ _ hb]

theorem word_eq_zero_of_bytes {w : Word} (h : ∀ t < 8, byteOf w t = 0) : w = 0 :=
  word_ext_bytes fun t ht => by rw [h t ht, byteOf_zero]

/-- The zero-padded chunk is made of the bytes of the sequence (R11, R77). -/
theorem byteOf_le8 (bytes : List Byte) (j t : Nat) (ht : t < 8) : byteOf (le8 bytes j) t = bytes.getD (j + t) 0 :=
  byteOf_wordOfBytes _ t ht

namespace Machine

/-! ### Counters -/

theorem counter_eq (w : Word) (c : Nat) : counter w c = w.toNat / 16 ^ c % 16 := by
  have h : (16 : Nat) ^ c = 2 ^ (4 * c) := by rw [Nat.pow_mul]
  simp [counter, nib, BitVec.extractLsb'_toNat, Nat.shiftRight_eq_div_pow, h]

theorem counter_lt (w : Word) (c : Nat) : counter w c < 16 := (nib w c).isLt

@[simp] theorem counter_zero (c : Nat) : counter 0 c = 0 := by simp [counter_eq]

/-- The value added to a lane, as a number. -/
theorem toNat_laneOne (c : Nat) (hc : c < 16) : ((1#64 <<< (4 * c)) : Word).toNat = 16 ^ c := by
  have h : (16 : Nat) ^ c = 2 ^ (4 * c) := by rw [Nat.pow_mul]
  have h2 : (2 : Nat) ^ (4 * c) < 2 ^ 64 := Nat.pow_lt_pow_right (by decide) (by omega)
  rw [BitVec.toNat_shiftLeft, h]
  simp only [BitVec.toNat_ofNat, Nat.shiftLeft_eq]
  rw [Nat.mod_eq_of_lt (by norm_num : (1 : Nat) < 2 ^ 64), Nat.one_mul, Nat.mod_eq_of_lt h2]

/-- Adding one at a digit below 15 raises that digit and no other: no carry leaves it. -/
theorem digit_add_one (x c d : Nat) (h : x / 16 ^ c % 16 < 15) :
    (x + 16 ^ c) / 16 ^ d % 16 = x / 16 ^ d % 16 + if d = c then 1 else 0 := by
  have hpos : 0 < 16 ^ c := Nat.pow_pos (by decide)
  have hdiv : (x + 16 ^ c) / 16 ^ c = x / 16 ^ c + 1 := Nat.add_div_right _ hpos
  rcases Nat.lt_trichotomy d c with hd | hd | hd
  · obtain ⟨k, rfl⟩ : ∃ k, c = d + (k + 1) := ⟨c - d - 1, by omega⟩
    have hdp : 0 < 16 ^ d := Nat.pow_pos (by decide)
    have : (x + 16 ^ (d + (k + 1))) / 16 ^ d = x / 16 ^ d + 16 * 16 ^ k := by
      rw [Nat.pow_add, Nat.pow_succ, Nat.add_mul_div_left _ _ hdp, Nat.mul_comm 16]
    rw [this, if_neg (by omega)]
    omega
  · subst hd
    rw [hdiv, if_pos rfl]
    omega
  · obtain ⟨k, rfl⟩ : ∃ k, d = c + (k + 1) := ⟨d - c - 1, by omega⟩
    have e : ∀ y : Nat, y / 16 ^ (c + (k + 1)) = y / 16 ^ c / 16 / 16 ^ k := by
      intro y
      rw [Nat.pow_add, Nat.pow_succ', ← Nat.div_div_eq_div_mul, ← Nat.div_div_eq_div_mul]
    rw [e, e, hdiv, if_neg (by omega)]
    have : (x / 16 ^ c + 1) / 16 = x / 16 ^ c / 16 := by omega
    rw [this, Nat.add_zero]

/-- An added digit stays below the word's width. -/
theorem digit_add_lt (x c : Nat) (hx : x < 16 ^ 16) (hc : c < 16) (h : x / 16 ^ c % 16 < 15) :
    x + 16 ^ c < 16 ^ 16 := by
  have hpos : 0 < 16 ^ c := Nat.pow_pos (by decide)
  have hdiv : (x + 16 ^ c) / 16 ^ c = x / 16 ^ c + 1 := Nat.add_div_right _ hpos
  have e : (16 : Nat) ^ 16 = 16 ^ (15 - c) * 16 * 16 ^ c := by
    rw [← Nat.pow_succ, ← Nat.pow_add]
    congr 1
    omega
  have hlt : x / 16 ^ c < 16 ^ (15 - c) * 16 := by
    rw [Nat.div_lt_iff_lt_mul hpos, ← e]
    exact hx
  have hlt' : (x + 16 ^ c) / 16 ^ c < 16 ^ (15 - c) * 16 := by rw [hdiv]; omega
  rw [e]
  exact (Nat.div_lt_iff_lt_mul hpos).mp hlt'

/-- The sum of a word and a lane's one is exact when the lane is below 15. -/
theorem toNat_add_laneOne (w : Word) (c : Nat) (hc : c < 16) (h : counter w c < 15) :
    (w + (1#64 <<< (4 * c))).toNat = w.toNat + 16 ^ c := by
  rw [BitVec.toNat_add, toNat_laneOne c hc, Nat.mod_eq_of_lt]
  have e : (2 : Nat) ^ 64 = 16 ^ 16 := by norm_num
  have hw : w.toNat < 16 ^ 16 := e ▸ w.isLt
  exact e ▸ digit_add_lt w.toNat c hw hc (counter_eq w c ▸ h)

/-- Lane independence of the saturating add (R162): lane `c` gains one unless it is 15, no other lane changes. -/
theorem counter_addLane (w : Word) (c d : Nat) (hc : c < 16) :
    counter (addLane w c) d = counter w d + if d = c ∧ counter w c < 15 then 1 else 0 := by
  unfold addLane
  by_cases h : counter w c < 15
  · rw [if_pos (show counter w c < ctrMax from h), counter_eq, toNat_add_laneOne w c hc h,
      digit_add_one _ _ _ (counter_eq w c ▸ h), ← counter_eq]
    simp [h]
  · rw [if_neg (show ¬ counter w c < ctrMax from h)]
    simp [h]

/-! ### Halving and odd lanes -/

theorem ageKeepMask_getLsbD (c k : Nat) (hc : c < 16) (hk : k < 4) :
    ageKeepMask.getLsbD (4 * c + k) = decide (k < 3) := by
  revert k hk
  revert c hc
  decide

/-- Halving acts lane by lane (R150, R162). -/
theorem counter_halveLanes (w : Word) (c : Nat) (hc : c < 16) : counter (halveLanes w) c = counter w c / 2 := by
  have h : nib (halveLanes w) c = nib w c >>> 1 := by
    apply BitVec.eq_of_getLsbD_eq
    intro k hk
    have := ageKeepMask_getLsbD c k hc hk
    simp only [nib, halveLanes, BitVec.getLsbD_extractLsb', BitVec.getLsbD_and, BitVec.getLsbD_ushiftRight,
      this, hk, decide_true, Bool.true_and]
    by_cases h3 : k < 3
    · simp [h3, show 1 + k < 4 by omega, show 1 + (4 * c + k) = 4 * c + (1 + k) by omega]
    · simp [h3, show ¬ 1 + k < 4 by omega]
  simp [counter, h, Nat.shiftRight_one]

@[simp] theorem halveLanes_zero : halveLanes 0 = 0 := by decide

@[simp] theorem oddLanes_zero : oddLanes 0 = 0 := by decide

theorem counter_mod_two (w : Word) (c : Nat) : counter w c % 2 = (w.getLsbD (4 * c)).toNat := by
  have h2 : (nib w c).getLsbD 0 = w.getLsbD (4 * c) := by simp [nib]
  rw [← h2]
  simp [counter, BitVec.getLsbD, Nat.testBit_zero]
  rcases Nat.mod_two_eq_zero_or_one (nib w c).toNat with e | e <;> simp [e]

theorem countP_every_fourth (f : Nat → Bool) (n : Nat) :
    (List.range (4 * n)).countP (fun b => f b && decide (b % 4 = 0)) =
      ((List.range n).map fun c => (f (4 * c)).toNat).sum := by
  induction n with
  | zero => rfl
  | succ n ih =>
    rw [show 4 * (n + 1) = 4 * n + 1 + 1 + 1 + 1 by omega]
    simp only [List.range_succ, List.countP_append, List.countP_singleton, ih, List.map_append, List.sum_append,
      List.map_cons, List.map_nil, List.sum_cons, List.sum_nil]
    have h0 : 4 * n % 4 = 0 := by omega
    cases h : f (4 * n) <;> simp [h0]

/-- The odd lanes are the odd counters (R150). -/
theorem oddLanes_eq (w : Word) : oddLanes w = ((List.range 16).map fun c => counter w c % 2).sum := by
  simp only [counter_mod_two]
  unfold oddLanes popcount
  simp only [BitVec.getLsbD_and]
  have hm : ∀ b : Fin 64, ageOddMask.getLsbD b = decide ((b : Nat) % 4 = 0) := by decide
  have : (List.range 64).countP (fun b => w.getLsbD b && ageOddMask.getLsbD b) =
      (List.range 64).countP fun b => w.getLsbD b && decide (b % 4 = 0) := by
    apply List.countP_congr
    intro b hb
    rw [hm ⟨b, List.mem_range.mp hb⟩]
  rw [this]
  exact countP_every_fourth w.getLsbD 16

theorem oddLanes_le (w : Word) : oddLanes w ≤ ((List.range 16).map (counter w)).sum := by
  rw [oddLanes_eq]
  exact List.sum_le_sum fun c _ => Nat.mod_le _ _

/-- The counters of a halved word and its odd lanes make up the word's counters. -/
theorem sum_halveLanes (w : Word) :
    2 * ((List.range 16).map (counter (halveLanes w))).sum + oddLanes w =
      ((List.range 16).map (counter w)).sum := by
  rw [oddLanes_eq, ← List.sum_map_mul_left, ← List.sum_map_add]
  congr 1
  apply List.map_congr_left
  intro c hc
  rw [counter_halveLanes w c (List.mem_range.mp hc)]
  omega

end Machine

end Sys2Proof
end

