-- ==== Sys2Proof/WellFormed.lean ====
section
/-! DEFINITION. When a command can be written as a packet (30_encoding.md R75 to R77): the key operand has
one of its three legal forms, and a byte sequence is no longer than `KEYLEN_MAX` and than a `LEN` word
can say. -/

namespace Sys2Proof

/-- A length a `LEN` word may carry (R77): at most `KEYLEN_MAX`, and representable in 64 bits. The empty
sequence is within every bound; its case stands first so that it can be evaluated while `KEYLEN_MAX` is
open (log entry 7). -/
def lengthOk (p : Params) (n : Nat) : Bool :=
  n == 0 || (decide (n ≤ p.keylenMax) && decide (n < 2 ^ 64))

/-- Bytes with an absent flag, as formats K and B carry them (R76): nothing when absent, else a sequence of
admitted length. -/
def bytesFormOk (p : Params) (absent : Bool) (bytes : List Byte) : Bool :=
  if absent then bytes.isEmpty else lengthOk p bytes.length

/-- The legal forms of a key operand (R76): on the identity path the key is neither absent nor has bytes. -/
def Key.ok (p : Params) (key : Key) : Bool :=
  match key.path with
  | .bytes => bytesFormOk p key.absent key.bytes
  | .ident => !key.absent && key.bytes.isEmpty

/-- A command that has a packet (R72, R75 to R77). -/
def Instr.wellFormed (p : Params) (i : Instr) : Bool :=
  match i with
  | .spread _ => true
  | .rehash _ => true
  | .hash64 _ bytes => lengthOk p bytes.length
  | .hashstr absent bytes => bytesFormOk p absent bytes
  | .hashid _ => true
  | .ftest _ => true
  | .fput _ => true
  | .ensure _ => true
  | .incr key => key.ok p
  | .freq key => key.ok p
  | .isninit => true
  | .rdsr _ => true
  | .rdtbl _ => true
  | .rdflt _ => true

end Sys2Proof
end

