-- ==== Sys2Proof/Laws/Decode.lean ====
section
/-! SUPPORT. The parts of the encoding: the fields of a header that is put together (30_encoding.md R71), the
opcode map (R79), and byte sequences as data words and back (R77). -/

namespace Sys2Proof

/-! ### The header -/

theorem mkHeader_getLsbD (op : Opcode) (a pf : Bool) (imm : U32) (k : Nat) :
    (mkHeader op a pf imm).getLsbD k =
      if k < 8 then op.code.getLsbD k else if k = 8 then a else if k = 9 then pf
      else if k < 32 then false else imm.getLsbD (k - 32) := by
  unfold mkHeader
  simp only [BitVec.getLsbD_append, BitVec.getLsbD_ofBool, BitVec.getLsbD_zero]
  by_cases h1 : k < 8
  · simp [h1, show k < 32 by omega, show k < 10 by omega, show k < 9 by omega]
  · by_cases h2 : k = 8
    · subst h2
      simp
    · by_cases h3 : k = 9
      · subst h3
        simp
      · by_cases h4 : k < 32
        · simp [h1, h2, h3, h4, show ¬ k < 10 by omega]
        · simp [h1, h2, h3, h4]

@[simp] theorem headerOpc_mkHeader (op : Opcode) (a pf : Bool) (imm : U32) :
    headerOpc (mkHeader op a pf imm) = op.code := by
  apply BitVec.eq_of_getLsbD_eq
  intro k hk
  simp [headerOpc, mkHeader_getLsbD, hk]

@[simp] theorem headerA_mkHeader (op : Opcode) (a pf : Bool) (imm : U32) : headerA (mkHeader op a pf imm) = a := by
  rw [headerA, mkHeader_getLsbD]
  rfl

@[simp] theorem headerP_mkHeader (op : Opcode) (a pf : Bool) (imm : U32) : headerP (mkHeader op a pf imm) = pf := by
  rw [headerP, mkHeader_getLsbD]
  rfl

@[simp] theorem headerMbz_mkHeader (op : Opcode) (a pf : Bool) (imm : U32) :
    headerMbz (mkHeader op a pf imm) = 0 := by
  apply BitVec.eq_of_getLsbD_eq
  intro k hk
  simp [headerMbz, mkHeader_getLsbD, hk, show ¬ 10 + k < 8 by omega, show 10 + k ≠ 8 by omega,
    show 10 + k ≠ 9 by omega, show 10 + k < 32 by omega]

@[simp] theorem headerImm_mkHeader (op : Opcode) (a pf : Bool) (imm : U32) :
    headerImm (mkHeader op a pf imm) = imm := by
  apply BitVec.eq_of_getLsbD_eq
  intro k hk
  simp [headerImm, mkHeader_getLsbD, hk, show ¬ 32 + k < 8 by omega, show 32 + k ≠ 8 by omega,
    show 32 + k ≠ 9 by omega]

/-- A header with its must-be-zero bits zero is its fields put together. -/
theorem mkHeader_fields (op : Opcode) (h : Word) (ho : headerOpc h = op.code) (hz : headerMbz h = 0) :
    mkHeader op (headerA h) (headerP h) (headerImm h) = h := by
  apply BitVec.eq_of_getLsbD_eq
  intro k hk
  rw [mkHeader_getLsbD, ← ho]
  split
  · simp [headerOpc, *]
  · split
    · simp [headerA, *]
    · split
      · simp [headerP, *]
      · split
        · have hb : (headerMbz h).getLsbD (k - 10) = false := by rw [hz]; simp
          simp only [headerMbz, BitVec.getLsbD_extractLsb', show 10 + (k - 10) = k by omega,
            show k - 10 < 22 by omega, decide_true, Bool.true_and] at hb
          exact hb.symm
        · simp only [headerImm, BitVec.getLsbD_extractLsb', show 32 + (k - 32) = k by omega,
            show k - 32 < 32 by omega, decide_true, Bool.true_and]

/-! ### The opcode map -/

@[simp] theorem Opcode.ofByte_code (op : Opcode) : Opcode.ofByte op.code = some op := by
  cases op <;> decide

theorem Opcode.code_of_ofByte (b : Byte) (op : Opcode) (h : Opcode.ofByte b = some op) : op.code = b := by
  have := List.find?_some h
  simpa using this

/-! ### Byte sequences (R77) -/

theorem nd_bound (len : Nat) : len ≤ 8 * nd len ∧ 8 * nd len < len + 8 := by
  unfold nd
  omega

@[simp] theorem nd_zero : nd 0 = 0 := rfl

@[simp] theorem packBytes_length (bytes : List Byte) : (packBytes bytes).length = nd bytes.length := by
  simp [packBytes]

@[simp] theorem unpackBytes_length (len : Nat) (ds : List Word) : (unpackBytes len ds).length = len := by
  simp [unpackBytes]

/-- Byte `j` of packed bytes: byte `j` of the sequence, zero in the padding. -/
theorem dataByte_packBytes (bytes : List Byte) (j : Nat) : dataByte (packBytes bytes) j = bytes.getD j 0 := by
  have hb := nd_bound bytes.length
  unfold dataByte
  by_cases hj : j / 8 < nd bytes.length
  · have : (packBytes bytes).getD (j / 8) 0 = le8 bytes (8 * (j / 8)) := by
      simp [packBytes, List.getD_eq_getElem?_getD, hj]
    rw [this, byteOf_le8 _ _ _ (by omega), Nat.div_add_mod]
  · have h1 : (packBytes bytes).getD (j / 8) 0 = 0 := by
      simp [packBytes, List.getD_eq_getElem?_getD, hj]
    have h2 : bytes.getD j 0 = 0 := by
      rw [List.getD_eq_getElem?_getD, List.getElem?_eq_none (by omega)]
      rfl
    rw [h1, h2, byteOf_zero]

/-- Packed bytes unpack to the sequence. -/
theorem unpackBytes_packBytes (bytes : List Byte) : unpackBytes bytes.length (packBytes bytes) = bytes := by
  apply List.ext_getElem (by simp)
  intro j h1 h2
  simp [unpackBytes, dataByte_packBytes, List.getD_eq_getElem?_getD, h2]

/-- Data words whose padding is zero are the packed bytes they carry. -/
theorem packBytes_unpackBytes (len : Nat) (ds : List Word) (hl : ds.length = nd len)
    (hp : ∀ u < 8 * nd len - len, dataByte ds (len + u) = 0) : packBytes (unpackBytes len ds) = ds := by
  have hb := nd_bound len
  apply List.ext_getElem (by simp [hl])
  intro q h1 h2
  apply word_ext_bytes
  intro t ht
  have e1 : (packBytes (unpackBytes len ds))[q] = le8 (unpackBytes len ds) (8 * q) := by
    simp [packBytes]
  have e2 : byteOf ds[q] t = dataByte ds (8 * q + t) := by
    unfold dataByte
    rw [show (8 * q + t) / 8 = q by omega, show (8 * q + t) % 8 = t by omega]
    simp [List.getD_eq_getElem?_getD, h2]
  rw [e1, byteOf_le8 _ _ _ ht, e2]
  by_cases hlt : 8 * q + t < len
  · simp [unpackBytes, List.getD_eq_getElem?_getD, hlt]
  · have := hp (8 * q + t - len) (by omega)
    rw [show len + (8 * q + t - len) = 8 * q + t by omega] at this
    rw [this, List.getD_eq_getElem?_getD, List.getElem?_eq_none (by simp; omega)]
    rfl

end Sys2Proof
end

