-- ==== Sys2Proof/Laws/PerInstr.lean ====
section
/-! SUPPORT. Facts about every command as syntax, one lemma per constructor. `RowHeader`: the header that the
encoder writes for the command matches the command's row of the opcode table under the row's mask
(30_encoding.md R86). -/

namespace Sys2Proof.Laws

/-- The encoded header matches the row of the opcode table. -/
def RowHeader.Statement (i : Instr) : Prop :=
  (encode i).header &&& rowMask i.opcode.format = rowMatch i.opcode

/-- The mask of format I hides `IMM`, that of format K also `A` and `P`, that of format B `A`. -/
theorem mkHeader_and_mask (op : Opcode) (a pf : Bool) (imm : U32)
    (ha : a = true → op.format = .k ∨ op.format = .b) (hp : pf = true → op.format = .k)
    (him : imm = 0 ∨ op.format = .i ∨ op.format = .k) :
    mkHeader op a pf imm &&& rowMask op.format = rowMatch op := by
  have hi : ∀ k : Fin 64, (0x00000000FFFFFFFF#64).getLsbD k = decide ((k : Nat) < 32) := by decide
  have hk : ∀ k : Fin 64, (0x00000000FFFFFCFF#64).getLsbD k =
      decide ((k : Nat) < 32 ∧ (k : Nat) ≠ 8 ∧ (k : Nat) ≠ 9) := by decide
  have hb : ∀ k : Fin 64, (0xFFFFFFFFFFFFFEFF#64).getLsbD k = decide ((k : Nat) ≠ 8) := by decide
  have hz : ∀ k : Fin 64, (0xFFFFFFFFFFFFFFFF#64).getLsbD k = true := by decide
  apply BitVec.eq_of_getLsbD_eq
  intro k hlt
  have hi := hi ⟨k, hlt⟩
  have hk := hk ⟨k, hlt⟩
  have hb := hb ⟨k, hlt⟩
  have hz := hz ⟨k, hlt⟩
  simp only at hi hk hb hz
  have hm : (rowMatch op).getLsbD k = if k < 8 then op.code.getLsbD k else false := by
    simp only [rowMatch, BitVec.getLsbD_setWidth, hlt, decide_true, Bool.true_and]
    split
    · rfl
    · exact BitVec.getLsbD_of_ge _ _ (by omega)
  rw [BitVec.getLsbD_and, hm, mkHeader_getLsbD]
  by_cases h1 : k < 8
  · cases hf' : op.format <;> simp only [rowMask, hi, hk, hb, hz, h1] <;> simp <;> omega
  · rw [if_neg h1, if_neg h1]
    cases hf : op.format <;> simp only [hf, rowMask, hi, hk, hb, hz] at * <;>
      rcases him with rfl | him <;> (try cases him) <;> cases a <;> cases pf <;> simp_all <;> omega

/-- A key's header, in any of its forms; a key that is absent on the identity path has none (R76), and its
header still agrees with the mask, which cannot tell (R86). -/
theorem encodeKey_header (op : Opcode) (hf : op.format = .k) (key : Key) :
    (encodeKey op key).header &&& rowMask op.format = rowMatch op := by
  unfold encodeKey
  cases key.path
  · exact mkHeader_and_mask op _ _ _ (by simp [hf]) (by simp [hf]) (by simp [hf])
  · exact mkHeader_and_mask op _ _ _ (by simp [hf]) (by simp [hf]) (by simp [hf])

theorem RowHeader.spread (x : U32) : RowHeader.Statement (.spread x) :=
  mkHeader_and_mask .spread _ _ _ (by simp [Opcode.format]) (by simp [Opcode.format]) (by simp [Opcode.format])

theorem RowHeader.rehash (x : U32) : RowHeader.Statement (.rehash x) :=
  mkHeader_and_mask .rehash _ _ _ (by simp [Opcode.format]) (by simp [Opcode.format]) (by simp [Opcode.format])

theorem RowHeader.hash64 (seed : Word) (bytes : List Byte) : RowHeader.Statement (.hash64 seed bytes) :=
  mkHeader_and_mask .hash64 _ _ _ (by simp [Opcode.format]) (by simp [Opcode.format]) (by simp [Opcode.format])

theorem RowHeader.hashstr (absent : Bool) (bytes : List Byte) : RowHeader.Statement (.hashstr absent bytes) :=
  mkHeader_and_mask .hashstr _ _ _ (by simp [Opcode.format]) (by simp [Opcode.format]) (by simp [Opcode.format])

theorem RowHeader.hashid (x : U32) : RowHeader.Statement (.hashid x) :=
  mkHeader_and_mask .hashid _ _ _ (by simp [Opcode.format]) (by simp [Opcode.format]) (by simp [Opcode.format])

theorem RowHeader.ftest (h : Word) : RowHeader.Statement (.ftest h) :=
  mkHeader_and_mask .ftest _ _ _ (by simp [Opcode.format]) (by simp [Opcode.format]) (by simp [Opcode.format])

theorem RowHeader.fput (h : Word) : RowHeader.Statement (.fput h) :=
  mkHeader_and_mask .fput _ _ _ (by simp [Opcode.format]) (by simp [Opcode.format]) (by simp [Opcode.format])

theorem RowHeader.ensure (ms : Word) : RowHeader.Statement (.ensure ms) :=
  mkHeader_and_mask .ensure _ _ _ (by simp [Opcode.format]) (by simp [Opcode.format]) (by simp [Opcode.format])

theorem RowHeader.incr (key : Key) : RowHeader.Statement (.incr key) :=
  encodeKey_header .incr rfl key

theorem RowHeader.freq (key : Key) : RowHeader.Statement (.freq key) :=
  encodeKey_header .freq rfl key

theorem RowHeader.isninit : RowHeader.Statement (.isninit) :=
  mkHeader_and_mask .isninit _ _ _ (by simp [Opcode.format]) (by simp [Opcode.format]) (by simp [Opcode.format])

theorem RowHeader.rdsr (r : U32) : RowHeader.Statement (.rdsr r) :=
  mkHeader_and_mask .rdsr _ _ _ (by simp [Opcode.format]) (by simp [Opcode.format]) (by simp [Opcode.format])

theorem RowHeader.rdtbl (idx : U32) : RowHeader.Statement (.rdtbl idx) :=
  mkHeader_and_mask .rdtbl _ _ _ (by simp [Opcode.format]) (by simp [Opcode.format]) (by simp [Opcode.format])

theorem RowHeader.rdflt (q : U32) : RowHeader.Statement (.rdflt q) :=
  mkHeader_and_mask .rdflt _ _ _ (by simp [Opcode.format]) (by simp [Opcode.format]) (by simp [Opcode.format])

end Sys2Proof.Laws
end

