-- ==== Sys2Proof/Safety.lean ====
section
/-! DEFINITION. What a good state of the engine is (10_state.md R39, with the facts of R24 to R29, R121 and R125
it rests on), what it is for a command to change nothing of the engine, and the terms the claims use. -/

namespace Sys2Proof

/-- The commands of R57 and R165 that change no state. -/
def Instr.readOnly (i : Instr) : Bool :=
  match i with
  | .spread _ => true
  | .rehash _ => true
  | .hash64 _ _ => true
  | .hashstr _ _ => true
  | .hashid _ => true
  | .ftest _ => true
  | .fput _ => false
  | .ensure _ => false
  | .incr _ => false
  | .freq _ => true
  | .isninit => true
  | .rdsr _ => true
  | .rdtbl _ => true
  | .rdflt _ => true

end Sys2Proof

namespace Sys2Proof.Machine

/-- The sum of all counters of a table of `len` words (R39 item 7). -/
def Memory.counterSum (m : Memory) (len : Nat) : Nat :=
  ((List.range len).map fun j => ((List.range 16).map (counter (m.readWord j))).sum).sum

/-- The invariants of R39 that speak of one state, with what they rest on. -/
structure State.Inv (s : State) : Prop where
  /-- R39 item 1, and the rest of R24 and R29 for an engine that has no storage. -/
  uninitialised : s.init = false →
    s.tableLen = 0 ∧ s.table = [] ∧ s.blockMask = 0 ∧ s.sampleSize = 0 ∧ s.unbounded = false ∧ s.size = 0 ∧
      s.fltInit = false ∧ s.fltN = 0 ∧ s.fltM = 0 ∧ s.fltK = 0 ∧ s.bits = []
  /-- R39 item 2: a power of two from 8 to 2^30. -/
  tableLength : s.init = true → ∃ j : Fin 28, s.tableLen = 8 * 2 ^ (j : Nat)
  /-- R39 item 2: the block mask. -/
  blockMask : s.init = true → s.blockMask.toNat = s.tableLen / 8 - 1
  /-- R39 item 3. -/
  sample : s.init = true → s.unbounded = false →
    1 ≤ s.sampleSize.toNat ∧ s.sampleSize.toNat ≤ 2 ^ 31 - 1 ∧ s.size.toNat < s.sampleSize.toNat
  /-- R27: an unbounded sample size holds 0. -/
  unboundedSample : s.unbounded = true → s.sampleSize = 0
  /-- R39 item 4. -/
  filterInit : s.fltInit = s.init
  /-- R39 item 4, R121, R122: the filter has the geometry of its capacity. -/
  geometry : s.fltInit = true → s.fltM = filterLength s.fltN ∧ s.fltK = filterProbes
  /-- R125: the table is at least as long as the filter's capacity. -/
  filterCapacity : s.fltN ≤ s.tableLen
  /-- The table is in canonical form and lies within its length (R24, R50). -/
  tableCanonical : s.table.wf = true ∧ ∀ c ∈ s.table, c.1 < 8 * s.tableLen
  /-- The bit array is in canonical form and lies within its length (R29, R51). -/
  bitsCanonical : s.bits.wf = true ∧ ∀ j ∈ s.bits, j < s.fltM
  /-- R39 item 7 (R152): with a bounded sample size and with an unbounded one, as long as `size` has not stopped at
  `2^32 - 1` (R149; log entry 12). -/
  counterSum : s.size.toNat < 2 ^ 32 - 1 → s.table.counterSum s.tableLen ≤ 4 * s.size.toNat + 3

/-- Two states with the same engine: they differ at most in the host's events and the responses returned. -/
def State.sameEngine (s t : State) : Prop := t = { s with inputs := t.inputs, responses := t.responses }

/-- A step from this state does not stop. -/
def Safe (s : State) : Prop := ∃ t, step s = .next t

/-- A command run `n` times over, stopping at a fault or a refusal. -/
def execTimes (i : Instr) (n : Nat) (s : State) : Host.Outcome State Fault Refusal :=
  match n with
  | 0 => .next s
  | k + 1 =>
    match exec i s with
    | .next t => execTimes i k t
    | .fault r => .fault r
    | .refused r => .refused r

/-- A counter after the four increments of `INCR` (R149): one more if it is one of the key's counters and below 15. -/
def State.raised (s : State) (sl : List Slot) (j c : Nat) : Nat :=
  counter (s.table.readWord j) c +
    if Slot.mk j c ∈ sl ∧ counter (s.table.readWord j) c < 15 then 1 else 0

/-- Some counter of the key is below 15, so that `INCR` changes one (R149, "accepted increment"). -/
def State.acceptable (s : State) (sl : List Slot) : Prop :=
  ∃ x ∈ sl, counter (s.table.readWord x.word) x.ctr < 15

/-- `size` plus one, stopping at `2^32 - 1` (R149, step 5). -/
def State.sizePlusOne (s : State) : Nat := min (s.size.toNat + 1) (2 ^ 32 - 1)

/-- An accepted increment makes `size` reach a bounded sample size (R149, step 5): the increment ages. -/
def State.atSample (s : State) : Prop := s.unbounded = false ∧ s.sizePlusOne = s.sampleSize.toNat

/-- The two events that R153 item 2 excludes: the command is an `INCR` that ages (R151), or an `ENSURE` that grows the
table (R145, R204). -/
def State.forgetsOn (s : State) (i : Instr) : Prop :=
  match i with
  | .spread _ => False
  | .rehash _ => False
  | .hash64 _ _ => False
  | .hashstr _ _ => False
  | .hashid _ => False
  | .ftest _ => False
  | .fput _ => False
  | .ensure ms => 0 ≤ ms.toInt ∧ s.tableLen < min ms.toNat (2 ^ 30)
  | .incr key =>
    s.mightContain (keyHash64 Config.params key) = true ∧ s.acceptable (slots Config.params key.ident s.blockMask) ∧
      s.atSample
  | .freq _ => False
  | .isninit => False
  | .rdsr _ => False
  | .rdtbl _ => False
  | .rdflt _ => False

/-- The commands, executed one after another from `s`, lead to `t`, and none of them ages or grows (R153 item 2: "with
no aging and no growing `ENSURE` in between"). -/
def State.runsQuietly (s : State) (cmds : List Instr) (t : State) : Prop :=
  match cmds with
  | [] => t = s
  | i :: rest => ¬ s.forgetsOn i ∧ ∃ u, exec i s = .next u ∧ u.runsQuietly rest t

/-- Probe `i` of a hash (R124): `(h1 + i * h2) mod fltM`, `h1` the low half of the hash and `h2` the high half. -/
def State.probe (s : State) (h : Word) (i : Nat) : Nat :=
  ((h.extractLsb' 0 32).toNat + i * (h.extractLsb' 32 32).toNat) % s.fltM

/-- An event that is a packet, not a reset. -/
def Input.isPacket (e : Input) : Bool :=
  match e with
  | .packet _ => true
  | .reset => false
  | .resetDuring _ => false

end Sys2Proof.Machine
end

