-- ==== Sys2Proof/Certificates/Slice0/Obligations.lean ====
section
/-! DEFINITION. The statements about the engine, each from the numbered rules its docstring names. A statement that
rests on the model's own choice says so. -/

open Sys2Proof Sys2Proof.Machine

/-! ### Mixing Hash -/

/-- R100, R101: `SPREAD` answers the three-round mix of its operand, zero-extended, and changes nothing else. -/
def Obligations.SpreadAnswersTheThreeRoundMix : Prop :=
  ∀ (x : U32) (s : State), ∃ x1 x2 x3 x4 x5 : U32,
    x1 = x ^^^ (x >>> 17) ∧ x2 = x1 * Config.c1 ∧ x3 = x2 ^^^ (x2 >>> 11) ∧ x4 = x3 * Config.c2 ∧
      x5 = x4 ^^^ (x4 >>> 15) ∧ exec (.spread x) s = .next (s.respond .ok (x5.setWidth 64))

/-- R102, R103: `REHASH` answers one multiply-xor round of its operand, zero-extended, and changes nothing else. -/
def Obligations.RehashAnswersTheFurtherRound : Prop :=
  ∀ (x : U32) (s : State), ∃ y1 y2 : U32,
    y1 = x * Config.c3 ∧ y2 = y1 ^^^ (y1 >>> 14) ∧
      exec (.rehash x) s = .next (s.respond .ok (y2.setWidth 64))

/-- R101, R103, corner cases: 0 is answered for 0, whatever the multipliers. -/
def Obligations.SpreadAndRehashOfZeroAnswerZero : Prop :=
  ∀ s : State, exec (.spread 0) s = .next (s.respond .ok 0) ∧ exec (.rehash 0) s = .next (s.respond .ok 0)

/-- R100: `spread` is a bijection on `u32` if both its multipliers are odd. -/
def Obligations.SpreadIsBijectiveForOddMultipliers : Prop :=
  ∀ p : Params, p.c1.getLsbD 0 = true → p.c2.getLsbD 0 = true → Function.Bijective (spread p)

/-- R105, R106, R107, R110: the 64-bit hash commands answer the hash of their operands; the absent string hashes to 0,
and `HASHSTR` is `HASH64` under the fixed seed 305441741. Nothing else changes. -/
def Obligations.HashCommandsAnswerTheHash : Prop :=
  ∀ (seed : Word) (bytes : List Byte) (x : U32) (s : State),
    exec (.hash64 seed bytes) s = .next (s.respond .ok (Config.hash64 bytes seed)) ∧
      exec (.hashstr false bytes) s = .next (s.respond .ok (Config.hash64 bytes 305441741)) ∧
      exec (.hashstr true bytes) s = .next (s.respond .ok 0) ∧
      exec (.hashid x) s = .next (s.respond .ok (Config.idHash64 x))

/-- R112: the response of every command of the family is a function of the packet alone. -/
def Obligations.HashAnswersDependOnThePacketAlone : Prop :=
  ∀ i : Instr, i.opcode ∈ [Opcode.spread, .rehash, .hash64, .hashstr, .hashid] →
    ∃ v : Word, ∀ s : State, exec i s = .next (s.respond .ok v)

/-- R104: the reference definition hashes the empty sequence under seed 0 to 0 for every `HM` and `HR`. -/
def Obligations.ReferenceHashOfNothingIsZero : Prop :=
  ∀ (hm : Word) (hr : Nat), hash64Reference hm hr [] 0 = 0

/-- R55 (b), R104: the reference definition consumes the packet's data words: every full word is a chunk, and a last,
partial word is the zero-padded tail. -/
def Obligations.ReferenceHashConsumesTheDataWords : Prop :=
  ∀ (hm : Word) (hr : Nat) (bytes : List Byte) (seed : Word),
    let h0 := seed ^^^ (BitVec.ofNat 64 bytes.length * hm)
    let full := (packBytes bytes).take (bytes.length / 8)
    let h1 := full.foldl (mixChunk hm hr) h0
    hash64Reference hm hr bytes seed =
      finishHash hm hr
        (match (packBytes bytes).drop (bytes.length / 8) with
          | [] => h1
          | tail :: _ => (h1 ^^^ tail) * hm)

/-! ### Doorkeeper Filter -/

/-- R121: the table of `fltM` values, and R122: `fltK = 6` for every capacity. -/
def Obligations.FilterGeometryHasTheTabledValues : Prop :=
  [0, 1, 2, 3, 5, 8, 10, 16, 17, 100, 1000, 65536, 2 ^ 20, 2 ^ 30].map filterGeometry =
    [(9, 6), (9, 6), (17, 6), (25, 6), (41, 6), (66, 6), (82, 6), (131, 6), (139, 6), (815, 6), (8143, 6),
      (533618, 6), (8537887, 6), (8742796061, 6)]

/-- R120 with `p = 1/50` (R121, R122, R161): for every capacity the engine admits, the integer form that the model
uses is the exact real formula, `m = max(1, ceil(-n1 ln(p) / (ln 2)^2))` and `k = max(1, floor((m / n1) ln 2 + 1/2))`. -/
def Obligations.FilterGeometryIsTheExactRealFormula : Prop :=
  ∀ n : Nat, n ≤ 2 ^ 30 →
    ((filterGeometry n).1 : ℤ) = max 1 ⌈-((max n 1 : Nat) : ℝ) * Real.log (1 / 50) / Real.log 2 ^ 2⌉ ∧
      ((filterGeometry n).2 : ℤ) =
        max 1 ⌊((filterGeometry n).1 : ℝ) / ((max n 1 : Nat) : ℝ) * Real.log 2 + 1 / 2⌋

/-- R124, R126, R127: `FTEST` answers 1 exactly when the filter is built and all its probes are set, and changes nothing
else. -/
def Obligations.FtestAnswersMembership : Prop :=
  ∀ (h : Word) (s : State), s.Inv →
    exec (.ftest h) s =
      .next (s.respond .ok (if s.fltInit = true ∧ ∀ i < s.fltK, s.probe h i ∈ s.bits then 1 else 0))

/-- R124, R128, R129: `FPUT` sets the probed bits of a built filter and no others, answers 1 exactly when one of them
was clear before, and changes nothing else. -/
def Obligations.FputSetsTheProbedBits : Prop :=
  ∀ (h : Word) (s : State), s.Inv → ∃ t : State,
    exec (.fput h) s = .next t ∧
      t = { s with
        bits := t.bits
        responses := s.responses ++
          [⟨0, if s.fltInit = true ∧ ∃ i < s.fltK, s.probe h i ∉ s.bits then 1 else 0⟩] } ∧
      ∀ j, j ∈ t.bits ↔ j ∈ s.bits ∨ (s.fltInit = true ∧ ∃ i < s.fltK, j = s.probe h i)

/-- R130 (a): after `FPUT h` on a built filter, `FTEST h` answers 1, and a second `FPUT h` answers 0 (R129). -/
def Obligations.FputLeavesNoFalseNegative : Prop :=
  ∀ (h : Word) (s : State), s.Inv → s.fltInit = true → ∃ t : State,
    exec (.fput h) s = .next t ∧ exec (.ftest h) t = .next (t.respond .ok 1) ∧
      exec (.fput h) t = .next (t.respond .ok 0)

/-- R130 (b), (c): a command keeps every bit that is set, or is an `ENSURE` that recreates the filter. -/
def Obligations.FilterBitsAreClearedOnlyByRecreation : Prop :=
  ∀ (i : Instr) (s t : State), s.Inv → exec i s = .next t →
    (∀ j ∈ s.bits, j ∈ t.bits) ∨
      ∃ ms, i = .ensure ms ∧ 0 ≤ ms.toInt ∧ s.tableLen < min ms.toNat (2 ^ 30) ∧ t.bits = []

/-! ### Frequency Sketch: sizing -/

/-- R143: `ISNINIT` answers 1 exactly while the engine is uninitialised, and changes nothing else. -/
def Obligations.IsninitAnswersUninitialised : Prop :=
  ∀ s : State, exec .isninit s = .next (s.respond .ok (if s.init = true then 0 else 1))

/-- R145: a negative operand is an argument error with no mutation; any other is clamped to `2^30`; where the table
already covers the clamped capacity nothing changes; an uninitialised engine covers nothing, so its first `ENSURE` builds. -/
def Obligations.EnsureChecksClampsAndCovers : Prop :=
  ∀ (ms : Word) (s : State),
    (ms.toInt < 0 → exec (.ensure ms) s = .next (s.respond .arg 0)) ∧
      (0 ≤ ms.toInt → exec (.ensure ms) s = exec (.ensure (BitVec.ofNat 64 (min ms.toNat (2 ^ 30)))) s) ∧
      (0 ≤ ms.toInt → s.init = true → min ms.toNat (2 ^ 30) ≤ s.tableLen →
        exec (.ensure ms) s = .next (s.respond .ok 0)) ∧
      (0 ≤ ms.toInt → s.init = false → ∃ t : State,
        exec (.ensure ms) s = .next t ∧ t.init = true ∧ min ms.toNat (2 ^ 30) ≤ t.tableLen)

/-- R144, R146: an `ENSURE` that builds gives every variable of the engine its new value: the least power of two at
least 8 and at least the capacity, zeroed counters, the mask, the sample size, `size` 0, the filter for the capacity,
zeroed. The host's events stay and one response is returned. -/
def Obligations.EnsureBuildsTableAndFilter : Prop :=
  ∀ (ms : Word) (s : State), s.Inv → 0 ≤ ms.toInt →
    (s.init = false ∨ s.tableLen < min ms.toNat (2 ^ 30)) → ∃ t : State,
      exec (.ensure ms) s = .next t ∧ t.init = true ∧ t.unbounded = (sampleSizeFor (min ms.toNat (2 ^ 30))).2 ∧
        t.sampleSize = (sampleSizeFor (min ms.toNat (2 ^ 30))).1 ∧ t.size = 0 ∧
        (∃ e, t.tableLen = 2 ^ e ∧ 8 ≤ 2 ^ e ∧ min ms.toNat (2 ^ 30) ≤ 2 ^ e ∧
          ∀ d, 8 ≤ 2 ^ d → min ms.toNat (2 ^ 30) ≤ 2 ^ d → 2 ^ e ≤ 2 ^ d) ∧
        t.blockMask.toNat = t.tableLen / 8 - 1 ∧ (∀ a, t.table.read a = 0) ∧ t.fltInit = true ∧
        t.fltN = min ms.toNat (2 ^ 30) ∧ (t.fltM, t.fltK) = filterGeometry (min ms.toNat (2 ^ 30)) ∧ t.bits = [] ∧
        t.inputs = s.inputs ∧ t.responses = s.responses ++ [⟨0, 0⟩]

/-- R147: the sample size of a capacity, row by row of the rule's map, the wrapped products used as they are. -/
def Obligations.SampleSizeFollowsTheMap : Prop :=
  ∀ cap : Nat, cap ≤ 2 ^ 30 →
    sampleSizeFor cap =
      if cap = 0 then (10, false)
      else if cap ≤ 214748364 then (BitVec.ofNat 32 (10 * cap), false)
      else if cap ≤ 429496729 then (0, true)
      else if cap ≤ 644245094 then (BitVec.ofNat 32 (10 * cap - 2 ^ 32), false)
      else if cap ≤ 858993459 then (0, true)
      else if cap ≤ 1073741823 then (BitVec.ofNat 32 (10 * cap - 2 ^ 33), false)
      else (0, true)

/-- R204: growth forgets: afterwards every key reads 0, every counter and `size` are 0 and no filter bit is set; an
`ENSURE` that does not exceed `tableLen` changes nothing. -/
def Obligations.GrowthForgetsEverything : Prop :=
  ∀ (ms : Word) (s : State), s.Inv → s.init = true → 0 ≤ ms.toInt →
    (s.tableLen < min ms.toNat (2 ^ 30) → ∃ t : State,
      exec (.ensure ms) s = .next t ∧ (∀ key, exec (.freq key) t = .next (t.respond .ok 0)) ∧
        (∀ j c, counter (t.table.readWord j) c = 0) ∧ t.size = 0 ∧ t.bits = []) ∧
      (min ms.toNat (2 ^ 30) ≤ s.tableLen → exec (.ensure ms) s = .next (s.respond .ok 0))

/-- R39 item 5: no command shrinks the table. -/
def Obligations.NoCommandShrinksTheTable : Prop :=
  ∀ (i : Instr) (s t : State), s.Inv → exec i s = .next t → s.tableLen ≤ t.tableLen

/-- R23: `init` is set by a successful `ENSURE`, never cleared by a command, and cleared by the reset input. -/
def Obligations.InitIsSetByEnsureAndClearedByReset : Prop :=
  (∀ (i : Instr) (s t : State), exec i s = .next t → s.init = true → t.init = true) ∧
    (∀ (i : Instr) (s t : State), exec i s = .next t → s.init = false → t.init = true →
      ∃ ms, i = .ensure ms ∧ 0 ≤ ms.toInt) ∧
    (∀ (ms : Word) (s : State), 0 ≤ ms.toInt → ∃ t : State, exec (.ensure ms) s = .next t ∧ t.init = true) ∧
    ∀ (s : State) (rest : List Input), s.inputs = .reset :: rest → ∃ t : State, step s = .next t ∧ t.init = false

/-! ### Frequency Sketch: counting -/

/-- R142, R39 item 6: the four counters of a key lie in four different words of one block of eight words of the table,
and are counters of those words. -/
def Obligations.CountersOfAKeyLieInOneBlock : Prop :=
  ∀ (p : Params) (ident : U32) (s : State), s.Inv → s.init = true →
    (slots p ident s.blockMask).length = 4 ∧
      (slots p ident s.blockMask).Pairwise (fun x y => x.word ≠ y.word) ∧
      ∃ block, 8 ∣ block ∧ block + 8 ≤ s.tableLen ∧
        ∀ x ∈ slots p ident s.blockMask, block ≤ x.word ∧ x.word < block + 8 ∧ x.ctr < 16

/-- R148: `FREQ` answers 0 on an uninitialised engine and for a key the filter does not contain, else the least of the
key's four counters plus one; nothing else changes. -/
def Obligations.FreqAnswersTheEstimate : Prop :=
  ∀ (key : Key) (s : State), s.Inv →
    (s.init = false → exec (.freq key) s = .next (s.respond .ok 0)) ∧
      (s.mightContain (keyHash64 Config.params key) = false → exec (.freq key) s = .next (s.respond .ok 0)) ∧
      (s.mightContain (keyHash64 Config.params key) = true → ∃ m : Nat,
        (∀ x ∈ slots Config.params key.ident s.blockMask, m ≤ counter (s.table.readWord x.word) x.ctr) ∧
          (∃ x ∈ slots Config.params key.ident s.blockMask, m = counter (s.table.readWord x.word) x.ctr) ∧
          exec (.freq key) s = .next (s.respond .ok (BitVec.ofNat 64 (m + 1))))

/-- R108: the filter hash of a key: its bytes' hash, 0 when absent, or the hash of its identity, by its path. -/
def Obligations.KeyHashFollowsThePath : Prop :=
  ∀ key : Key,
    (key.path = .bytes → key.absent = true → keyHash64 Config.params key = 0) ∧
      (key.path = .bytes → key.absent = false →
        keyHash64 Config.params key = Config.hash64 key.bytes 305441741) ∧
      (key.path = .ident → keyHash64 Config.params key = Config.idHash64 key.ident)

/-- R153 item 1: every estimate lies in 0 to 16. -/
def Obligations.FreqAnswersAtMostSixteen : Prop :=
  ∀ (key : Key) (s : State), s.Inv →
    ∃ v : Nat, v ≤ 16 ∧ exec (.freq key) s = .next (s.respond .ok (BitVec.ofNat 64 v))

/-- R149 step 1: `INCR` on an uninitialised engine changes nothing but its response. -/
def Obligations.IncrBeforeEnsureIsANoOp : Prop :=
  ∀ (key : Key) (s : State), s.init = false → exec (.incr key) s = .next (s.respond .ok 0)

/-- R149 step 3: `INCR` of a key that the filter does not contain sets its filter bits and leaves the table, `size` and
all else untouched. -/
def Obligations.IncrOfANewKeyOnlySetsFilterBits : Prop :=
  ∀ (key : Key) (s : State), s.Inv → s.init = true →
    s.mightContain (keyHash64 Config.params key) = false → ∃ t : State,
      exec (.incr key) s = .next t ∧
        t = { s with bits := t.bits, responses := s.responses ++ [⟨0, 0⟩] } ∧
        ∀ j, j ∈ t.bits ↔ j ∈ s.bits ∨ ∃ i < s.fltK, j = s.probe (keyHash64 Config.params key) i

/-- R149 steps 4 and 5, R150, R151: `INCR` of a key that the filter contains. Each of its four counters below 15 gains
one. If none was, nothing but the response changes. Else `size` gains one, and if that reaches a bounded sample size every
counter is halved, `size` loses a quarter of the odd counters and is halved. Nothing else changes, the filter included. -/
def Obligations.IncrCountsAKnownKey : Prop :=
  ∀ (key : Key) (s : State), s.Inv → s.init = true →
    s.mightContain (keyHash64 Config.params key) = true → ∃ t : State,
      exec (.incr key) s = .next t ∧
        t = { s with table := t.table, size := t.size, responses := s.responses ++ [⟨0, 0⟩] } ∧
        (¬ s.acceptable (slots Config.params key.ident s.blockMask) → t = s.respond .ok 0) ∧
        (s.acceptable (slots Config.params key.ident s.blockMask) → ¬ s.atSample →
          t.size.toNat = s.sizePlusOne ∧
            ∀ j c, c < 16 → counter (t.table.readWord j) c =
              s.raised (slots Config.params key.ident s.blockMask) j c) ∧
        (s.acceptable (slots Config.params key.ident s.blockMask) → s.atSample →
          t.size.toNat =
              (s.sizePlusOne - ((List.range s.tableLen).map fun j => ((List.range 16).map fun c =>
                s.raised (slots Config.params key.ident s.blockMask) j c % 2).sum).sum / 4) / 2 ∧
            ∀ j c, c < 16 → counter (t.table.readWord j) c =
              s.raised (slots Config.params key.ident s.blockMask) j c / 2)

/-- R149, frame: where `INCR` does not age, every byte of the table outside the key's four words reads as before. -/
def Obligations.IncrLeavesOtherTableBytes : Prop :=
  ∀ (key : Key) (s t : State), s.Inv → s.init = true → ¬ s.atSample → exec (.incr key) s = .next t →
    ∀ a, (∀ x ∈ slots Config.params key.ident s.blockMask, ¬ (8 * x.word ≤ a ∧ a < 8 * x.word + 8)) →
      t.table.read a = s.table.read a

/-- R150, R152: when an accepted `INCR` ages, a quarter of the odd counters is at most `size`: the subtraction never
reaches its floor. -/
def Obligations.AgingNeverSubtractsBelowZero : Prop :=
  ∀ (key : Key) (s : State), s.Inv → s.init = true → s.atSample →
    ((List.range s.tableLen).map fun j => ((List.range 16).map fun c =>
      s.raised (slots Config.params key.ident s.blockMask) j c % 2).sum).sum / 4 ≤ s.sizePlusOne

/-- R148, R149, on the way to R153 item 2: `n` further `INCR` in a row of a key the filter contains, too few to reach the
sample size, raise its estimate by `n`, up to 16; so it is at least `min(n, 15) + 1`. -/
def Obligations.RepeatedIncrementsRaiseTheEstimate : Prop :=
  ∀ (key : Key) (n m : Nat) (s : State), s.Inv → s.init = true →
    s.mightContain (keyHash64 Config.params key) = true →
    s.unbounded = true ∨ s.size.toNat + n < s.sampleSize.toNat →
    m ≤ 15 → exec (.freq key) s = .next (s.respond .ok (BitVec.ofNat 64 (m + 1))) → ∃ t : State,
      execTimes (.incr key) n s = .next t ∧
        exec (.freq key) t = .next (t.respond .ok (BitVec.ofNat 64 (min (m + n) 15 + 1))) ∧
        min n 15 + 1 ≤ min (m + n) 15 + 1

/-- R153 item 2, its step: no command but an `INCR` that ages and an `ENSURE` that grows lowers the estimate of a key the
filter contains, or makes the filter lose it; an `INCR` of that very key raises its estimate by one, up to 16. -/
def Obligations.NoQuietCommandLowersAnEstimate : Prop :=
  ∀ (i : Instr) (key : Key) (m : Nat) (s t : State), s.Inv → s.init = true →
    s.mightContain (keyHash64 Config.params key) = true → m ≤ 15 →
    exec (.freq key) s = .next (s.respond .ok (BitVec.ofNat 64 (m + 1))) → ¬ s.forgetsOn i → exec i s = .next t →
      t.init = true ∧ t.mightContain (keyHash64 Config.params key) = true ∧ ∃ n : Nat,
        m ≤ n ∧ n ≤ 15 ∧ (i = .incr key → n = min (m + 1) 15) ∧
          exec (.freq key) t = .next (t.respond .ok (BitVec.ofNat 64 (n + 1)))

/-- R153 item 2: no undercount between agings. If the filter contains a key and any commands follow, none of which ages or
grows, then its estimate is at least `min(j, 15) + 1` for the `j` of them that are `INCR` of that key. -/
def Obligations.NoUndercountBetweenAgings : Prop :=
  ∀ (key : Key) (cmds : List Instr) (s t : State), s.Inv → s.init = true →
    s.mightContain (keyHash64 Config.params key) = true → s.runsQuietly cmds t →
      ∃ v : Nat, min (cmds.count (.incr key)) 15 + 1 ≤ v ∧ v ≤ 16 ∧
        exec (.freq key) t = .next (t.respond .ok (BitVec.ofNat 64 v))

/-- R150, R151, R153 item 5: an `INCR` that ages makes every counter that is not zero strictly smaller than it was before
the aging, at least one among them, and leaves the filter as it was, so that `FREQ` of each key it contains still answers
at least 1. -/
def Obligations.AgingShrinksEveryNonzeroCounter : Prop :=
  ∀ (key : Key) (s : State), s.Inv → s.init = true → s.forgetsOn (.incr key) → ∃ t : State,
    exec (.incr key) s = .next t ∧ t.bits = s.bits ∧
      (∀ j c, c < 16 → 0 < s.raised (slots Config.params key.ident s.blockMask) j c →
        counter (t.table.readWord j) c < s.raised (slots Config.params key.ident s.blockMask) j c) ∧
      (∃ x ∈ slots Config.params key.ident s.blockMask,
        0 < s.raised (slots Config.params key.ident s.blockMask) x.word x.ctr) ∧
      ∀ other, s.mightContain (keyHash64 Config.params other) = true →
        ∃ v : Nat, 1 ≤ v ∧ v ≤ 16 ∧ exec (.freq other) t = .next (t.respond .ok (BitVec.ofNat 64 v))

/-- R148, R149, R153 item 3: on a freshly sized engine the first `INCR` of a key leaves the table untouched and the key
then reads 1; after the second it reads 2. -/
def Obligations.FirstTwoOccurrencesReadOneThenTwo : Prop :=
  ∀ (ms : Word) (key : Key), 0 ≤ ms.toInt → ∃ s0 s1 s2 : State,
    exec (.ensure ms) State.reset = .next s0 ∧ exec (.incr key) s0 = .next s1 ∧ s1.table = s0.table ∧
      s1.size = 0 ∧ exec (.freq key) s1 = .next (s1.respond .ok 1) ∧ exec (.incr key) s1 = .next s2 ∧
      s2.size = 1 ∧ exec (.freq key) s2 = .next (s2.respond .ok 2)

/-- R142, R148, R149: a counted occurrence of one key leaves the estimate of a key of another block as it was, where
it does not age. Stated for every value of the OPEN parameters. -/
def Obligations.KeysOfOtherBlocksDoNotInterfere : Prop :=
  ∀ (p : Params) (k1 k2 : Key) (s t : State), s.Inv → s.init = true → s.mightContain (keyHash64 p k1) = true →
    ¬ s.atSample → blockBase (spread p k1.ident) s.blockMask ≠ blockBase (spread p k2.ident) s.blockMask →
    increment p k1 s = .next t →
      ∃ v : Word, frequency p k2 s = .next (s.respond .ok v) ∧ frequency p k2 t = .next (t.respond .ok v)

/-! ### Status and read-out -/

/-- R31 to R38, R170: `RDSR` answers the register's view of the state, `ERR_RANGE` for 8 and above, and changes nothing
else. -/
def Obligations.RdsrAnswersTheRegister : Prop :=
  ∀ s : State,
    (∃ v : Word, exec (.rdsr 0) s = .next (s.respond .ok v) ∧ v.getLsbD 0 = s.init ∧ v.getLsbD 1 = s.unbounded ∧
      v.getLsbD 2 = s.fltInit ∧ ∀ b, 3 ≤ b → v.getLsbD b = false) ∧
      exec (.rdsr 1) s = .next (s.respond .ok (BitVec.ofNat 64 s.tableLen)) ∧
      exec (.rdsr 2) s = .next (s.respond .ok (s.blockMask.setWidth 64)) ∧
      exec (.rdsr 3) s = .next (s.respond .ok (s.sampleSize.setWidth 64)) ∧
      exec (.rdsr 4) s = .next (s.respond .ok (s.size.setWidth 64)) ∧
      exec (.rdsr 5) s = .next (s.respond .ok (BitVec.ofNat 64 s.fltM)) ∧
      exec (.rdsr 6) s = .next (s.respond .ok (BitVec.ofNat 64 s.fltK)) ∧
      exec (.rdsr 7) s = .next (s.respond .ok (BitVec.ofNat 64 s.fltN)) ∧
      ∀ r : U32, 8 ≤ r.toNat → exec (.rdsr r) s = .next (s.respond .range 0)

/-- R32, R36: in a good state the registers `TBLLEN`, `FLTM`, `FLTK` and `FLTN` hold their numbers exactly, `TBLLEN` is
0 or a power of two from 8 to 2^30, and `FLTM` is at most 8742796061. -/
def Obligations.RegistersHoldTheirNumbers : Prop :=
  ∀ s : State, s.Inv →
    (BitVec.ofNat 64 s.tableLen).toNat = s.tableLen ∧ (BitVec.ofNat 64 s.fltM).toNat = s.fltM ∧
      (BitVec.ofNat 64 s.fltK).toNat = s.fltK ∧ (BitVec.ofNat 64 s.fltN).toNat = s.fltN ∧
      (s.tableLen = 0 ∨ ∃ e, 3 ≤ e ∧ e ≤ 30 ∧ s.tableLen = 2 ^ e) ∧ s.fltM ≤ 8742796061

/-- R171: `RDTBL` answers the table word, or `ERR_RANGE` outside the table, and changes nothing else. The word is the
eight bytes of the byte view, little-endian (R50). -/
def Obligations.RdtblAnswersTheWord : Prop :=
  ∀ (idx : U32) (s : State),
    (s.init = false ∨ s.tableLen ≤ idx.toNat → exec (.rdtbl idx) s = .next (s.respond .range 0)) ∧
      (s.init = true → idx.toNat < s.tableLen → ∃ v : Word,
        exec (.rdtbl idx) s = .next (s.respond .ok v) ∧
          ∀ t < 8, ∀ b < 8, v.getLsbD (8 * t + b) = (s.table.read (8 * idx.toNat + t)).getLsbD b)

/-- R172: `RDFLT` answers the 64 bits of the group, those at and beyond `fltM` zero, or `ERR_RANGE` where the group lies
wholly beyond the bit array, and changes nothing else. -/
def Obligations.RdfltAnswersTheGroup : Prop :=
  ∀ (q : U32) (s : State),
    (s.fltInit = false ∨ s.fltM ≤ 64 * q.toNat → exec (.rdflt q) s = .next (s.respond .range 0)) ∧
      (s.fltInit = true → 64 * q.toNat < s.fltM → ∃ v : Word,
        exec (.rdflt q) s = .next (s.respond .ok v) ∧
          ∀ t < 64, v.getLsbD t = true ↔ 64 * q.toNat + t < s.fltM ∧ 64 * q.toNat + t ∈ s.bits)

/-! ### Frames and errors -/

/-- R57, R165: the read-only commands change nothing of the engine. -/
def Obligations.ReadOnlyCommandsChangeNothing : Prop :=
  ∀ (i : Instr) (s t : State), i.readOnly = true → exec i s = .next t → s.sameEngine t ∧ t.inputs = s.inputs

/-- R165: only `ENSURE` writes the sizes, the masks, the sample size and the filter's geometry; `FPUT` writes no table byte
and no `size`. The host's pending events are no command's. -/
def Obligations.OnlyEnsureWritesTheGeometry : Prop :=
  ∀ (i : Instr) (s t : State), exec i s = .next t →
    t.inputs = s.inputs ∧
      ((∀ ms, i ≠ .ensure ms) →
        t = { s with table := t.table, size := t.size, bits := t.bits, responses := t.responses }) ∧
      ∀ h, i = .fput h → t.table = s.table ∧ t.size = s.size

/-- R180: a packet is answered by one response, in order; where the response carries an error its value is 0 and nothing
of the engine has changed. -/
def Obligations.ErrorsLeaveTheEngineUnchanged : Prop :=
  ∀ (s t : State) (pk : Packet) (rest : List Input), s.inputs = .packet pk :: rest → step s = .next t →
    ∃ r : Response, t.responses = s.responses ++ [r] ∧ t.inputs = rest ∧
      (r.status ≠ 0 → r.value = 0 ∧ s.sameEngine t)

/-- R181 to R184: the status of the response to a packet: 1 exactly when the decoder answers illegal, 2 exactly when the
command is `ENSURE` of a negative operand, 3 exactly when a read-out index lies outside its space, else 0. A response
that is no success has value 0, and nothing of the engine has changed. -/
def Obligations.EachStatusHasItsCause : Prop :=
  ∀ (s t : State) (pk : Packet) (rest : List Input), s.inputs = .packet pk :: rest → step s = .next t →
    ∃ r : Response, t.responses = s.responses ++ [r] ∧ (r.status = 0 ∨ r.status = 1 ∨ r.status = 2 ∨ r.status = 3) ∧
      (r.status ≠ 0 → r.value = 0 ∧ s.sameEngine t) ∧
      (r.status = 1 ↔ ∃ e, decode Config.params pk = .error e) ∧
      (r.status = 2 ↔ ∃ ms : Word, decode Config.params pk = .ok (.ensure ms) ∧ ms.toInt < 0) ∧
      (r.status = 3 ↔
        (∃ n : U32, decode Config.params pk = .ok (.rdsr n) ∧ 8 ≤ n.toNat) ∨
          (∃ n : U32, decode Config.params pk = .ok (.rdtbl n) ∧ (s.init = false ∨ s.tableLen ≤ n.toNat)) ∨
          ∃ n : U32, decode Config.params pk = .ok (.rdflt n) ∧ (s.fltInit = false ∨ s.fltM ≤ 64 * n.toNat))

/-- The model's own stops (log entry 11): the filter commands stop exactly when a built filter has no bits but has
probes, `FREQ` and `INCR` then too, or when a counter of the key lies outside the table. R39 excludes both. -/
def Obligations.StopsExactlyOutsideStorage : Prop :=
  ∀ (h : Word) (key : Key) (s : State),
    (exec (.ftest h) s = .fault .filterBounds ↔ s.fltInit = true ∧ s.fltM = 0 ∧ 0 < s.fltK) ∧
      (exec (.fput h) s = .fault .filterBounds ↔ s.fltInit = true ∧ s.fltM = 0 ∧ 0 < s.fltK) ∧
      (exec (.freq key) s = .fault .filterBounds ↔
        s.init = true ∧ s.fltInit = true ∧ s.fltM = 0 ∧ 0 < s.fltK) ∧
      (exec (.incr key) s = .fault .filterBounds ↔
        s.init = true ∧ s.fltInit = true ∧ s.fltM = 0 ∧ 0 < s.fltK) ∧
      (0 < s.fltM → (exec (.freq key) s = .fault .tableBounds ↔
        s.init = true ∧ s.mightContain (keyHash64 Config.params key) = true ∧
          ∃ x ∈ slots Config.params key.ident s.blockMask, s.tableLen ≤ x.word)) ∧
      (0 < s.fltM → (exec (.incr key) s = .fault .tableBounds ↔
        s.init = true ∧ s.newlyObserved (keyHash64 Config.params key) = false ∧
          ∃ x ∈ slots Config.params key.ident s.blockMask, s.tableLen ≤ x.word))

/-! ### Decoding -/

/-- R72 to R80: for every well-formed command, decoding its packet gives the command back, for every value of the OPEN
parameters. -/
def Obligations.DecodeOfEncodeIsTheCommand : Prop :=
  ∀ (p : Params) (i : Instr), i.wellFormed p = true → decode p (encode i) = .ok i

/-- R72 to R81: a packet that decodes to a command is that command's packet, and the command is well formed: no bit of a
legal packet is dropped, and nothing is accepted twice. -/
def Obligations.EncodeOfDecodeIsThePacket : Prop :=
  ∀ (p : Params) (pk : Packet) (i : Instr), decode p pk = .ok i → i.wellFormed p = true ∧ encode i = pk

/-- R85: the worked encodings decode to the commands they stand for, wherever `KEYLEN_MAX` admits their lengths. -/
def Obligations.WorkedEncodingsDecode : Prop :=
  ∀ p : Params, 9 ≤ p.keylenMax →
    decode p ⟨0x0000000000000023, []⟩ = .ok .isninit ∧
      decode p ⟨0x0000006100000001, []⟩ = .ok (.spread 0x61) ∧
      decode p ⟨0x0000000400000030, []⟩ = .ok (.rdsr 4) ∧
      decode p ⟨0x0000000000000020, [0x0000000000000010]⟩ = .ok (.ensure 16) ∧
      decode p ⟨0x0000000000000020, [0xFFFFFFFFFFFFFFFF]⟩ = .ok (.ensure (-1)) ∧
      decode p ⟨0x0000000000000011, [0x6EE2D45A1217E2FD]⟩ = .ok (.fput 0x6EE2D45A1217E2FD) ∧
      decode p ⟨0x0000006100000021, [1, 0x61]⟩ = .ok (.incr ⟨0x61, .bytes, false, [0x61]⟩) ∧
      decode p ⟨0x0000000000000122, []⟩ = .ok (.freq ⟨0, .bytes, true, []⟩) ∧
      decode p ⟨0x0000000200000221, []⟩ = .ok (.incr ⟨2, .ident, false, []⟩) ∧
      decode p ⟨0x0000000000000004, [9, 0x6867666564636261, 0x69]⟩ =
        .ok (.hashstr false [0x61, 0x62, 0x63, 0x64, 0x65, 0x66, 0x67, 0x68, 0x69]) ∧
      decode p ⟨0x0000000000000104, []⟩ = .ok (.hashstr true []) ∧
      decode p ⟨0x0000000000000004, [0]⟩ = .ok (.hashstr false []) ∧
      decode p ⟨0x0000000000000003, [0x1234ABCD, 3, 0x636261]⟩ = .ok (.hash64 0x1234ABCD [0x61, 0x62, 0x63])

/-- R79, R81: 14 opcodes are assigned and the other 242 are illegal, in any packet. -/
def Obligations.UnassignedOpcodesAreIllegal : Prop :=
  ((List.range 256).countP fun n => (Opcode.ofByte (BitVec.ofNat 8 n)).isNone) = 242 ∧
    ∀ (p : Params) (pk : Packet), (∀ op : Opcode, headerOpc pk.header ≠ op.code) → decode p pk = .error .opcode

/-- R86: a legal packet's header matches its command's row under the mask, and no header matches two rows. -/
def Obligations.LegalHeadersMatchTheirRow : Prop :=
  (∀ (p : Params) (pk : Packet) (i : Instr), decode p pk = .ok i →
    pk.header &&& rowMask i.opcode.format = rowMatch i.opcode) ∧
    ∀ (h : Word) (a b : Opcode), h &&& rowMask a.format = rowMatch a → h &&& rowMask b.format = rowMatch b → a = b

/-- R81: the malformed encodings it lists are illegal: a must-be-zero bit, `A = P = 1`, a flag or an immediate the format
forbids, a length above `KEYLEN_MAX`, a wrong number of words. -/
def Obligations.MalformedPacketsAreIllegal : Prop :=
  ∀ (p : Params) (pk : Packet) (op : Opcode), headerOpc pk.header = op.code →
    headerMbz pk.header ≠ 0 ∨ (headerA pk.header = true ∧ headerP pk.header = true) ∨
      (headerA pk.header = true ∧ op.format ≠ .k ∧ op.format ≠ .b) ∨
      (headerP pk.header = true ∧ op.format ≠ .k) ∨
      (headerImm pk.header ≠ 0 ∧ op.format ≠ .i ∧ op.format ≠ .k) ∨
      (carriesBytes op.format pk.header = true ∧ p.keylenMax < lenOf op.format pk.operands) ∨
      pk.operands.length ≠ operandCount op.format pk → ∃ e, decode p pk = .error e

/-! ### The machine -/

/-- R40, R200: the state after reset. The empty lists of the host's side are the model's (log entries 1 and 2). -/
def Obligations.ResetIsTheCreatedState : Prop :=
  State.reset.init = false ∧ State.reset.tableLen = 0 ∧ State.reset.table = [] ∧ State.reset.blockMask = 0 ∧
    State.reset.sampleSize = 0 ∧ State.reset.unbounded = false ∧ State.reset.size = 0 ∧
    State.reset.fltInit = false ∧ State.reset.fltN = 0 ∧ State.reset.fltM = 0 ∧ State.reset.fltK = 0 ∧
    State.reset.bits = [] ∧ (∀ idx, exec (.rdtbl idx) State.reset = .next (State.reset.respond .range 0)) ∧
    (∀ q, exec (.rdflt q) State.reset = .next (State.reset.respond .range 0)) ∧
    ∀ r : U32, r.toNat < 8 → exec (.rdsr r) State.reset = .next (State.reset.respond .ok 0)

/-- R58, R80: when the packet that is next on the port decodes to a command, the step takes it off the port and is the
command's execution. -/
def Obligations.StepRunsTheDecodedCommand : Prop :=
  ∀ (s : State) (pk : Packet) (rest : List Input) (i : Instr), s.inputs = .packet pk :: rest →
    decode Config.params pk = .ok i → step s = exec i { s with inputs := rest }

/-- R80, R182: a packet that the decoder rejects is answered `ERR_ILLEGAL` with value 0 and changes no engine state. -/
def Obligations.StepAnswersIllegalPackets : Prop :=
  ∀ (s : State) (pk : Packet) (rest : List Input) (e : Illegal), s.inputs = .packet pk :: rest →
    decode Config.params pk = .error e →
      step s = .next { s with inputs := rest, responses := s.responses ++ [⟨1, 0⟩] }

/-- R201: the reset input puts the engine in the state of R200 without a response, and discards a command in progress. -/
def Obligations.ResetInputDiscardsEverything : Prop :=
  ∀ (s : State) (rest : List Input) (pk : Packet), s.inputs = .reset :: rest ∨ s.inputs = .resetDuring pk :: rest →
    step s = .next { State.reset with inputs := rest, responses := s.responses }

/-- R192, R200: with nothing on the port the engine is idle and holds its state. -/
def Obligations.IdleEngineHoldsItsState : Prop := ∀ s : State, s.inputs = [] → step s = .next s

/-- R39: the state after reset is good. -/
def Obligations.ResetMeetsTheInvariants : Prop := State.reset.Inv

/-- R39, R152: every step keeps the invariants. -/
def Obligations.EveryStepKeepsTheInvariants : Prop :=
  ∀ s t : State, s.Inv → step s = .next t → t.Inv

/-- R39 items 4 and 6, R164, R185: from a good state no step stops: every packet is answered and every access lies inside
its storage. -/
def Obligations.NoStepStopsFromAGoodState : Prop := ∀ s : State, s.Inv → Safe s

/-- R58, R60, R70, R210: from a good state, a run over the packets that the host has sent answers each of them with
exactly one response, after those returned before, and ends with none pending, in a good state. -/
def Obligations.EveryPacketOfARunIsAnswered : Prop :=
  ∀ s : State, s.Inv → (∀ e ∈ s.inputs, e.isPacket = true) → ∃ t : State,
    Host.Core.run Sys2Proof.core s.inputs.length s = .next t ∧ t.inputs = [] ∧ t.Inv ∧
      ∃ rs : List Response, rs.length = s.inputs.length ∧ t.responses = s.responses ++ rs
end

