-- ==== Sys2Proof/Laws/State.lean ====
section
/-! SUPPORT. The fields of every update of the state, one lemma each, so that no later proof unfolds a record
update. An answer and an error are both responses, and `respond` is the one spelling. -/

namespace Sys2Proof.Machine

@[simp] theorem State.answer_eq (s : State) (v : Word) : s.answer v = s.respond .ok v := rfl

@[simp] theorem State.raiseError_eq (s : State) (st : Status) : s.raiseError st = s.respond st 0 := rfl

@[simp] theorem State.rejectPacket_eq (s : State) : s.rejectPacket = s.respond .illegal 0 := rfl

/-! ### `respond` -/

@[simp] theorem State.respond_init (s : State) (st : Status) (v : Word) : (s.respond st v).init = s.init := rfl

@[simp] theorem State.respond_tableLen (s : State) (st : Status) (v : Word) :
    (s.respond st v).tableLen = s.tableLen := rfl

@[simp] theorem State.respond_table (s : State) (st : Status) (v : Word) : (s.respond st v).table = s.table := rfl

@[simp] theorem State.respond_blockMask (s : State) (st : Status) (v : Word) :
    (s.respond st v).blockMask = s.blockMask := rfl

@[simp] theorem State.respond_sampleSize (s : State) (st : Status) (v : Word) :
    (s.respond st v).sampleSize = s.sampleSize := rfl

@[simp] theorem State.respond_unbounded (s : State) (st : Status) (v : Word) :
    (s.respond st v).unbounded = s.unbounded := rfl

@[simp] theorem State.respond_size (s : State) (st : Status) (v : Word) : (s.respond st v).size = s.size := rfl

@[simp] theorem State.respond_fltInit (s : State) (st : Status) (v : Word) :
    (s.respond st v).fltInit = s.fltInit := rfl

@[simp] theorem State.respond_fltN (s : State) (st : Status) (v : Word) : (s.respond st v).fltN = s.fltN := rfl

@[simp] theorem State.respond_fltM (s : State) (st : Status) (v : Word) : (s.respond st v).fltM = s.fltM := rfl

@[simp] theorem State.respond_fltK (s : State) (st : Status) (v : Word) : (s.respond st v).fltK = s.fltK := rfl

@[simp] theorem State.respond_bits (s : State) (st : Status) (v : Word) : (s.respond st v).bits = s.bits := rfl

@[simp] theorem State.respond_inputs (s : State) (st : Status) (v : Word) : (s.respond st v).inputs = s.inputs := rfl

@[simp] theorem State.respond_responses (s : State) (st : Status) (v : Word) :
    (s.respond st v).responses = s.responses ++ [⟨st.word, v⟩] := rfl

/-! ### `take` -/

@[simp] theorem State.take_init (s : State) (rest : List Input) : (s.take rest).init = s.init := rfl

@[simp] theorem State.take_tableLen (s : State) (rest : List Input) : (s.take rest).tableLen = s.tableLen := rfl

@[simp] theorem State.take_table (s : State) (rest : List Input) : (s.take rest).table = s.table := rfl

@[simp] theorem State.take_blockMask (s : State) (rest : List Input) : (s.take rest).blockMask = s.blockMask := rfl

@[simp] theorem State.take_sampleSize (s : State) (rest : List Input) :
    (s.take rest).sampleSize = s.sampleSize := rfl

@[simp] theorem State.take_unbounded (s : State) (rest : List Input) : (s.take rest).unbounded = s.unbounded := rfl

@[simp] theorem State.take_size (s : State) (rest : List Input) : (s.take rest).size = s.size := rfl

@[simp] theorem State.take_fltInit (s : State) (rest : List Input) : (s.take rest).fltInit = s.fltInit := rfl

@[simp] theorem State.take_fltN (s : State) (rest : List Input) : (s.take rest).fltN = s.fltN := rfl

@[simp] theorem State.take_fltM (s : State) (rest : List Input) : (s.take rest).fltM = s.fltM := rfl

@[simp] theorem State.take_fltK (s : State) (rest : List Input) : (s.take rest).fltK = s.fltK := rfl

@[simp] theorem State.take_bits (s : State) (rest : List Input) : (s.take rest).bits = s.bits := rfl

@[simp] theorem State.take_inputs (s : State) (rest : List Input) : (s.take rest).inputs = rest := rfl

@[simp] theorem State.take_responses (s : State) (rest : List Input) : (s.take rest).responses = s.responses := rfl

/-! ### `sendFirst` -/

@[simp] theorem State.sendFirst_init (s : State) (pk : Packet) : (s.sendFirst pk).init = s.init := rfl

@[simp] theorem State.sendFirst_tableLen (s : State) (pk : Packet) : (s.sendFirst pk).tableLen = s.tableLen := rfl

@[simp] theorem State.sendFirst_table (s : State) (pk : Packet) : (s.sendFirst pk).table = s.table := rfl

@[simp] theorem State.sendFirst_blockMask (s : State) (pk : Packet) : (s.sendFirst pk).blockMask = s.blockMask := rfl

@[simp] theorem State.sendFirst_sampleSize (s : State) (pk : Packet) :
    (s.sendFirst pk).sampleSize = s.sampleSize := rfl

@[simp] theorem State.sendFirst_unbounded (s : State) (pk : Packet) : (s.sendFirst pk).unbounded = s.unbounded := rfl

@[simp] theorem State.sendFirst_size (s : State) (pk : Packet) : (s.sendFirst pk).size = s.size := rfl

@[simp] theorem State.sendFirst_fltInit (s : State) (pk : Packet) : (s.sendFirst pk).fltInit = s.fltInit := rfl

@[simp] theorem State.sendFirst_fltN (s : State) (pk : Packet) : (s.sendFirst pk).fltN = s.fltN := rfl

@[simp] theorem State.sendFirst_fltM (s : State) (pk : Packet) : (s.sendFirst pk).fltM = s.fltM := rfl

@[simp] theorem State.sendFirst_fltK (s : State) (pk : Packet) : (s.sendFirst pk).fltK = s.fltK := rfl

@[simp] theorem State.sendFirst_bits (s : State) (pk : Packet) : (s.sendFirst pk).bits = s.bits := rfl

@[simp] theorem State.sendFirst_inputs (s : State) (pk : Packet) :
    (s.sendFirst pk).inputs = .packet pk :: s.inputs := rfl

@[simp] theorem State.sendFirst_responses (s : State) (pk : Packet) : (s.sendFirst pk).responses = s.responses := rfl

/-! ### `hardReset` -/

@[simp] theorem State.hardReset_init (s : State) : (s.hardReset).init = State.reset.init := rfl

@[simp] theorem State.hardReset_tableLen (s : State) : (s.hardReset).tableLen = State.reset.tableLen := rfl

@[simp] theorem State.hardReset_table (s : State) : (s.hardReset).table = State.reset.table := rfl

@[simp] theorem State.hardReset_blockMask (s : State) : (s.hardReset).blockMask = State.reset.blockMask := rfl

@[simp] theorem State.hardReset_sampleSize (s : State) : (s.hardReset).sampleSize = State.reset.sampleSize := rfl

@[simp] theorem State.hardReset_unbounded (s : State) : (s.hardReset).unbounded = State.reset.unbounded := rfl

@[simp] theorem State.hardReset_size (s : State) : (s.hardReset).size = State.reset.size := rfl

@[simp] theorem State.hardReset_fltInit (s : State) : (s.hardReset).fltInit = State.reset.fltInit := rfl

@[simp] theorem State.hardReset_fltN (s : State) : (s.hardReset).fltN = State.reset.fltN := rfl

@[simp] theorem State.hardReset_fltM (s : State) : (s.hardReset).fltM = State.reset.fltM := rfl

@[simp] theorem State.hardReset_fltK (s : State) : (s.hardReset).fltK = State.reset.fltK := rfl

@[simp] theorem State.hardReset_bits (s : State) : (s.hardReset).bits = State.reset.bits := rfl

@[simp] theorem State.hardReset_inputs (s : State) : (s.hardReset).inputs = s.inputs := rfl

@[simp] theorem State.hardReset_responses (s : State) : (s.hardReset).responses = s.responses := rfl

/-! ### `buildTable` -/

@[simp] theorem State.buildTable_init (s : State) (cap : Nat) : (s.buildTable cap).init = true := rfl

@[simp] theorem State.buildTable_tableLen (s : State) (cap : Nat) :
    (s.buildTable cap).tableLen = tableLenFor cap := rfl

@[simp] theorem State.buildTable_table (s : State) (cap : Nat) : (s.buildTable cap).table = [] := rfl

@[simp] theorem State.buildTable_blockMask (s : State) (cap : Nat) :
    (s.buildTable cap).blockMask = BitVec.ofNat 32 (tableLenFor cap / blockWords - 1) := rfl

@[simp] theorem State.buildTable_sampleSize (s : State) (cap : Nat) :
    (s.buildTable cap).sampleSize = (sampleSizeFor cap).1 := rfl

@[simp] theorem State.buildTable_unbounded (s : State) (cap : Nat) :
    (s.buildTable cap).unbounded = (sampleSizeFor cap).2 := rfl

@[simp] theorem State.buildTable_size (s : State) (cap : Nat) : (s.buildTable cap).size = 0 := rfl

@[simp] theorem State.buildTable_fltInit (s : State) (cap : Nat) : (s.buildTable cap).fltInit = s.fltInit := rfl

@[simp] theorem State.buildTable_fltN (s : State) (cap : Nat) : (s.buildTable cap).fltN = s.fltN := rfl

@[simp] theorem State.buildTable_fltM (s : State) (cap : Nat) : (s.buildTable cap).fltM = s.fltM := rfl

@[simp] theorem State.buildTable_fltK (s : State) (cap : Nat) : (s.buildTable cap).fltK = s.fltK := rfl

@[simp] theorem State.buildTable_bits (s : State) (cap : Nat) : (s.buildTable cap).bits = s.bits := rfl

@[simp] theorem State.buildTable_inputs (s : State) (cap : Nat) : (s.buildTable cap).inputs = s.inputs := rfl

@[simp] theorem State.buildTable_responses (s : State) (cap : Nat) :
    (s.buildTable cap).responses = s.responses := rfl

/-! ### `age` -/

@[simp] theorem State.age_init (s : State) : (s.age).init = s.init := rfl

@[simp] theorem State.age_tableLen (s : State) : (s.age).tableLen = s.tableLen := rfl

@[simp] theorem State.age_table (s : State) : (s.age).table = s.table.halveAll := rfl

@[simp] theorem State.age_blockMask (s : State) : (s.age).blockMask = s.blockMask := rfl

@[simp] theorem State.age_sampleSize (s : State) : (s.age).sampleSize = s.sampleSize := rfl

@[simp] theorem State.age_unbounded (s : State) : (s.age).unbounded = s.unbounded := rfl

@[simp] theorem State.age_size (s : State) :
    (s.age).size = BitVec.ofNat 32 ((s.size.toNat - s.table.oddCounters / 4) / 2) := rfl

@[simp] theorem State.age_fltInit (s : State) : (s.age).fltInit = s.fltInit := rfl

@[simp] theorem State.age_fltN (s : State) : (s.age).fltN = s.fltN := rfl

@[simp] theorem State.age_fltM (s : State) : (s.age).fltM = s.fltM := rfl

@[simp] theorem State.age_fltK (s : State) : (s.age).fltK = s.fltK := rfl

@[simp] theorem State.age_bits (s : State) : (s.age).bits = s.bits := rfl

@[simp] theorem State.age_inputs (s : State) : (s.age).inputs = s.inputs := rfl

@[simp] theorem State.age_responses (s : State) : (s.age).responses = s.responses := rfl

/-! ### `putBits` -/

@[simp] theorem State.putBits_init (s : State) (h : Word) :
    (s.putBits h).init = s.init := by
  unfold State.putBits; split <;> rfl

@[simp] theorem State.putBits_tableLen (s : State) (h : Word) :
    (s.putBits h).tableLen = s.tableLen := by
  unfold State.putBits; split <;> rfl

@[simp] theorem State.putBits_table (s : State) (h : Word) :
    (s.putBits h).table = s.table := by
  unfold State.putBits; split <;> rfl

@[simp] theorem State.putBits_blockMask (s : State) (h : Word) :
    (s.putBits h).blockMask = s.blockMask := by
  unfold State.putBits; split <;> rfl

@[simp] theorem State.putBits_sampleSize (s : State) (h : Word) :
    (s.putBits h).sampleSize = s.sampleSize := by
  unfold State.putBits; split <;> rfl

@[simp] theorem State.putBits_unbounded (s : State) (h : Word) :
    (s.putBits h).unbounded = s.unbounded := by
  unfold State.putBits; split <;> rfl

@[simp] theorem State.putBits_size (s : State) (h : Word) :
    (s.putBits h).size = s.size := by
  unfold State.putBits; split <;> rfl

@[simp] theorem State.putBits_fltInit (s : State) (h : Word) :
    (s.putBits h).fltInit = s.fltInit := by
  unfold State.putBits; split <;> rfl

@[simp] theorem State.putBits_fltN (s : State) (h : Word) :
    (s.putBits h).fltN = s.fltN := by
  unfold State.putBits; split <;> rfl

@[simp] theorem State.putBits_fltM (s : State) (h : Word) :
    (s.putBits h).fltM = s.fltM := by
  unfold State.putBits; split <;> rfl

@[simp] theorem State.putBits_fltK (s : State) (h : Word) :
    (s.putBits h).fltK = s.fltK := by
  unfold State.putBits; split <;> rfl

@[simp] theorem State.putBits_bits (s : State) (h : Word) :
    (s.putBits h).bits = if s.fltInit then s.bits.setAll (s.probes h) else s.bits := by
  unfold State.putBits; split <;> rfl

@[simp] theorem State.putBits_inputs (s : State) (h : Word) :
    (s.putBits h).inputs = s.inputs := by
  unfold State.putBits; split <;> rfl

@[simp] theorem State.putBits_responses (s : State) (h : Word) :
    (s.putBits h).responses = s.responses := by
  unfold State.putBits; split <;> rfl

/-! ### `filterEnsure` -/

@[simp] theorem State.filterEnsure_init (s : State) (n : Nat) :
    (s.filterEnsure n).init = s.init := by
  unfold State.filterEnsure; split <;> rfl

@[simp] theorem State.filterEnsure_tableLen (s : State) (n : Nat) :
    (s.filterEnsure n).tableLen = s.tableLen := by
  unfold State.filterEnsure; split <;> rfl

@[simp] theorem State.filterEnsure_table (s : State) (n : Nat) :
    (s.filterEnsure n).table = s.table := by
  unfold State.filterEnsure; split <;> rfl

@[simp] theorem State.filterEnsure_blockMask (s : State) (n : Nat) :
    (s.filterEnsure n).blockMask = s.blockMask := by
  unfold State.filterEnsure; split <;> rfl

@[simp] theorem State.filterEnsure_sampleSize (s : State) (n : Nat) :
    (s.filterEnsure n).sampleSize = s.sampleSize := by
  unfold State.filterEnsure; split <;> rfl

@[simp] theorem State.filterEnsure_unbounded (s : State) (n : Nat) :
    (s.filterEnsure n).unbounded = s.unbounded := by
  unfold State.filterEnsure; split <;> rfl

@[simp] theorem State.filterEnsure_size (s : State) (n : Nat) :
    (s.filterEnsure n).size = s.size := by
  unfold State.filterEnsure; split <;> rfl

@[simp] theorem State.filterEnsure_inputs (s : State) (n : Nat) :
    (s.filterEnsure n).inputs = s.inputs := by
  unfold State.filterEnsure; split <;> rfl

@[simp] theorem State.filterEnsure_responses (s : State) (n : Nat) :
    (s.filterEnsure n).responses = s.responses := by
  unfold State.filterEnsure; split <;> rfl

/-! ### `accept` -/

@[simp] theorem State.accept_init (s : State) :
    (s.accept).init = s.init := by
  unfold State.accept; dsimp only; split <;> rfl

@[simp] theorem State.accept_tableLen (s : State) :
    (s.accept).tableLen = s.tableLen := by
  unfold State.accept; dsimp only; split <;> rfl

@[simp] theorem State.accept_blockMask (s : State) :
    (s.accept).blockMask = s.blockMask := by
  unfold State.accept; dsimp only; split <;> rfl

@[simp] theorem State.accept_sampleSize (s : State) :
    (s.accept).sampleSize = s.sampleSize := by
  unfold State.accept; dsimp only; split <;> rfl

@[simp] theorem State.accept_unbounded (s : State) :
    (s.accept).unbounded = s.unbounded := by
  unfold State.accept; dsimp only; split <;> rfl

@[simp] theorem State.accept_fltInit (s : State) :
    (s.accept).fltInit = s.fltInit := by
  unfold State.accept; dsimp only; split <;> rfl

@[simp] theorem State.accept_fltN (s : State) :
    (s.accept).fltN = s.fltN := by
  unfold State.accept; dsimp only; split <;> rfl

@[simp] theorem State.accept_fltM (s : State) :
    (s.accept).fltM = s.fltM := by
  unfold State.accept; dsimp only; split <;> rfl

@[simp] theorem State.accept_fltK (s : State) :
    (s.accept).fltK = s.fltK := by
  unfold State.accept; dsimp only; split <;> rfl

@[simp] theorem State.accept_bits (s : State) :
    (s.accept).bits = s.bits := by
  unfold State.accept; dsimp only; split <;> rfl

@[simp] theorem State.accept_inputs (s : State) :
    (s.accept).inputs = s.inputs := by
  unfold State.accept; dsimp only; split <;> rfl

@[simp] theorem State.accept_responses (s : State) :
    (s.accept).responses = s.responses := by
  unfold State.accept; dsimp only; split <;> rfl

/-! ### `count` -/

@[simp] theorem State.count_init (s : State) (sl : List Slot) :
    (s.count sl).init = s.init := by
  unfold State.count; dsimp only; split <;> simp

@[simp] theorem State.count_tableLen (s : State) (sl : List Slot) :
    (s.count sl).tableLen = s.tableLen := by
  unfold State.count; dsimp only; split <;> simp

@[simp] theorem State.count_blockMask (s : State) (sl : List Slot) :
    (s.count sl).blockMask = s.blockMask := by
  unfold State.count; dsimp only; split <;> simp

@[simp] theorem State.count_sampleSize (s : State) (sl : List Slot) :
    (s.count sl).sampleSize = s.sampleSize := by
  unfold State.count; dsimp only; split <;> simp

@[simp] theorem State.count_unbounded (s : State) (sl : List Slot) :
    (s.count sl).unbounded = s.unbounded := by
  unfold State.count; dsimp only; split <;> simp

@[simp] theorem State.count_fltInit (s : State) (sl : List Slot) :
    (s.count sl).fltInit = s.fltInit := by
  unfold State.count; dsimp only; split <;> simp

@[simp] theorem State.count_fltN (s : State) (sl : List Slot) :
    (s.count sl).fltN = s.fltN := by
  unfold State.count; dsimp only; split <;> simp

@[simp] theorem State.count_fltM (s : State) (sl : List Slot) :
    (s.count sl).fltM = s.fltM := by
  unfold State.count; dsimp only; split <;> simp

@[simp] theorem State.count_fltK (s : State) (sl : List Slot) :
    (s.count sl).fltK = s.fltK := by
  unfold State.count; dsimp only; split <;> simp

@[simp] theorem State.count_bits (s : State) (sl : List Slot) :
    (s.count sl).bits = s.bits := by
  unfold State.count; dsimp only; split <;> simp

@[simp] theorem State.count_inputs (s : State) (sl : List Slot) :
    (s.count sl).inputs = s.inputs := by
  unfold State.count; dsimp only; split <;> simp

@[simp] theorem State.count_responses (s : State) (sl : List Slot) :
    (s.count sl).responses = s.responses := by
  unfold State.count; dsimp only; split <;> simp

/-! ### Updates that commute with the response -/

theorem State.sameEngine_respond (s : State) (st : Status) (v : Word) :
    s.respond st v = { s with inputs := (s.respond st v).inputs, responses := (s.respond st v).responses } := rfl

@[simp] theorem State.probes_respond (s : State) (st : Status) (v h : Word) :
    (s.respond st v).probes h = s.probes h := rfl

@[simp] theorem State.mightContain_respond (s : State) (st : Status) (v h : Word) :
    (s.respond st v).mightContain h = s.mightContain h := rfl

@[simp] theorem State.newlyObserved_respond (s : State) (st : Status) (v h : Word) :
    (s.respond st v).newlyObserved h = s.newlyObserved h := rfl

@[simp] theorem State.statusRegister_respond (s : State) (st : Status) (v : Word) (n : Nat) :
    (s.respond st v).statusRegister n = s.statusRegister n := rfl

end Sys2Proof.Machine
end

