-- ==== Sys2Proof/Laws/Filter.lean ====
section
/-! SUPPORT. The filter: what setting bits does, the canonical form it keeps, the range of the probe positions,
and the two functions `mightContain` and `put` (41_filter.md R124 to R130). -/

namespace Sys2Proof.Machine

/-! ### The bit array -/

theorem BitArray.wf_iff (b : BitArray) : b.wf = true ↔ b.Pairwise (· < ·) := by simp [BitArray.wf]

theorem BitArray.isSet_iff (b : BitArray) (j : Nat) : b.isSet j = true ↔ j ∈ b := by simp [BitArray.isSet]

/-- Setting a bit sets that bit and no other. -/
theorem BitArray.mem_set (b : BitArray) (j k : Nat) : k ∈ BitArray.set b j ↔ k = j ∨ k ∈ b := by
  induction b with
  | nil => simp [BitArray.set]
  | cons a b ih =>
    unfold BitArray.set
    split
    · simp
    · split
      · rename_i h
        subst h
        simp
      · simp only [List.mem_cons, ih]
        tauto

/-- Setting a bit keeps the canonical form. -/
theorem BitArray.wf_set (b : BitArray) (hb : b.wf = true) (j : Nat) : (BitArray.set b j).wf = true := by
  rw [BitArray.wf_iff] at *
  induction b with
  | nil => simp [BitArray.set]
  | cons a b ih =>
    obtain ⟨ha, hb'⟩ := List.pairwise_cons.mp hb
    unfold BitArray.set
    split
    · rename_i h
      refine List.pairwise_cons.mpr ⟨fun k hk => ?_, hb⟩
      rcases List.mem_cons.mp hk with rfl | hk
      · exact h
      · exact Nat.lt_trans h (ha k hk)
    · split
      · exact hb
      · refine List.pairwise_cons.mpr ⟨fun k hk => ?_, ih hb'⟩
        rcases (BitArray.mem_set b j k).mp hk with rfl | hk
        · omega
        · exact ha k hk

/-- Setting a list of bits sets those bits and no others. -/
theorem BitArray.mem_setAll (b : BitArray) (js : List Nat) (k : Nat) : k ∈ b.setAll js ↔ k ∈ js ∨ k ∈ b := by
  induction js generalizing b with
  | nil => simp [BitArray.setAll]
  | cons j js ih =>
    have := ih (BitArray.set b j)
    simp only [BitArray.setAll, List.foldl_cons, List.mem_cons] at *
    rw [this, BitArray.mem_set]
    tauto

/-- Setting a list of bits keeps the canonical form. -/
theorem BitArray.wf_setAll (b : BitArray) (hb : b.wf = true) (js : List Nat) : (b.setAll js).wf = true := by
  induction js generalizing b with
  | nil => exact hb
  | cons j js ih => exact ih _ (BitArray.wf_set b hb j)

/-- Canonical bit arrays with the same bits are equal. -/
theorem BitArray.ext_mem {a b : BitArray} (ha : a.wf = true) (hb : b.wf = true) (h : ∀ j, j ∈ a ↔ j ∈ b) : a = b := by
  rw [BitArray.wf_iff] at ha hb
  have key : a.Perm b :=
    (List.perm_ext_iff_of_nodup (ha.imp fun h => Nat.ne_of_lt h) (hb.imp fun h => Nat.ne_of_lt h)).mpr h
  exact key.eq_of_pairwise (fun x y _ _ hxy hyx => absurd hxy (Nat.lt_asymm hyx)) ha hb

/-! ### Probes -/

/-- A probe position (R124). -/
theorem mem_positions (m k : Nat) (h : Word) (j : Nat) :
    j ∈ positions m k h ↔
      ∃ i < k, j = ((h.extractLsb' 0 32).toNat + i * (h.extractLsb' 32 32).toNat) % m := by
  simp [positions, eq_comm]

/-- Every probe lies in a bit array that is not empty (R124). -/
theorem positions_lt (m k : Nat) (h : Word) (hm : 0 < m) : ∀ j ∈ positions m k h, j < m := by
  intro j hj
  obtain ⟨i, -, rfl⟩ := (mem_positions m k h j).mp hj
  exact Nat.mod_lt _ hm

theorem State.probesInside_of_pos (s : State) (h : Word) (hm : s.fltInit = true → 0 < s.fltM) :
    s.probesInside h = true := by
  unfold State.probesInside
  by_cases hf : s.fltInit = true
  · simp only [hf, Bool.not_true, Bool.false_or, List.all_eq_true, decide_eq_true_eq]
    exact positions_lt _ _ h (hm hf)
  · simp [hf]

theorem State.mightContain_iff (s : State) (h : Word) :
    s.mightContain h = true ↔ s.fltInit = true ∧ ∀ j ∈ s.probes h, j ∈ s.bits := by
  simp [State.mightContain, BitArray.isSet]

/-- `put` reports newly observed exactly when a built filter does not contain the hash (R128). -/
theorem State.newlyObserved_eq (s : State) (h : Word) : s.newlyObserved h = (s.fltInit && !s.mightContain h) := by
  cases hf : s.fltInit <;> simp [State.newlyObserved, State.mightContain, hf, List.not_all_eq_any_not]

theorem State.probes_putBits (s : State) (h k : Word) : (s.putBits h).probes k = s.probes k := by
  simp [State.probes]

/-- The bits after `put` (R128): those before and, in a built filter, the probed ones. -/
theorem State.mem_putBits (s : State) (h : Word) (j : Nat) :
    j ∈ (s.putBits h).bits ↔ j ∈ s.bits ∨ (s.fltInit = true ∧ j ∈ s.probes h) := by
  rw [State.putBits_bits]
  split
  · rename_i hf
    rw [BitArray.mem_setAll]
    simp only [hf, true_and]
    tauto
  · rename_i hf
    simp [hf]

theorem State.wf_putBits (s : State) (h : Word) (hb : s.bits.wf = true) : (s.putBits h).bits.wf = true := by
  rw [State.putBits_bits]
  split
  · exact BitArray.wf_setAll _ hb _
  · exact hb

/-- Afterwards a built filter contains the hash (R128, R130). -/
theorem State.mightContain_putBits (s : State) (h : Word) (hf : s.fltInit = true) :
    (s.putBits h).mightContain h = true := by
  rw [State.mightContain_iff, State.probes_putBits]
  exact ⟨by simp [hf], fun j hj => (State.mem_putBits s h j).mpr (.inr ⟨hf, hj⟩)⟩

/-- `put` of a hash that the filter contains writes nothing new (R149, step 3). -/
theorem State.putBits_of_mightContain (s : State) (h : Word) (hb : s.bits.wf = true) (hc : s.mightContain h = true) :
    s.putBits h = s := by
  obtain ⟨hf, hall⟩ := (State.mightContain_iff s h).mp hc
  have : (s.putBits h).bits = s.bits := by
    apply BitArray.ext_mem (State.wf_putBits s h hb) hb
    intro j
    rw [State.mem_putBits]
    exact ⟨fun h' => h'.elim id fun h'' => hall j h''.2, .inl⟩
  unfold State.putBits at *
  rw [if_pos hf] at *
  simp only at this
  rw [this]

/-- A bit of a read-out group (R51, R172). -/
theorem State.filterGroup_getLsbD (s : State) (q t : Nat) (ht : t < 64) :
    (s.filterGroup q).getLsbD t = (decide (64 * q + t < s.fltM) && s.bits.isSet (64 * q + t)) := by
  have key : ∀ n ≤ 64, ∀ t < 64,
      ((List.range n).foldl (fun v t => if decide (64 * q + t < s.fltM) && s.bits.isSet (64 * q + t) then
        v ||| (1#64 <<< t) else v) (0 : Word)).getLsbD t =
      (decide (t < n) && (decide (64 * q + t < s.fltM) && s.bits.isSet (64 * q + t))) := by
    intro n hn t ht
    induction n with
    | zero => simp
    | succ n ih =>
      rw [List.range_succ, List.foldl_append, List.foldl_cons, List.foldl_nil]
      have ih := ih (by omega)
      by_cases hc : (decide (64 * q + n < s.fltM) && s.bits.isSet (64 * q + n)) = true
      · rw [if_pos hc, BitVec.getLsbD_or, ih, BitVec.getLsbD_shiftLeft]
        by_cases htn : t = n
        · subst htn
          simp only [hc]
          simp [ht]
        · by_cases hlt : t < n
          · simp [hlt, show t < n + 1 by omega]
          · have : ¬ t < n + 1 := by omega
            have : t - n ≠ 0 := by omega
            simp [*]
      · rw [if_neg hc, ih]
        by_cases htn : t = n
        · subst htn
          simp only [Bool.not_eq_true] at hc
          simp [hc]
        · have : t < n ↔ t < n + 1 := by omega
          simp [this]
  have := key 64 (Nat.le_refl _) t ht
  simpa [State.filterGroup, ht] using this

end Sys2Proof.Machine
end

