-- ==== Sys2Proof/Laws/Memory.lean ====
section
/-! SUPPORT. The table's memory: reads after writes, by bytes and by words, the canonical form that every memory
operation keeps, and aging (20_memory.md R50, R57, 42_sketch.md R150). -/

namespace Sys2Proof.Machine

/-! ### The canonical form -/

theorem Memory.wf_iff (m : Memory) :
    m.wf = true ↔ m.Pairwise (fun c d => c.1 < d.1) ∧ ∀ c ∈ m, c.2 ≠ 0 := by
  simp [Memory.wf, Memory.unlisted]

@[simp] theorem Memory.wf_nil : Memory.wf [] = true := by decide

theorem Memory.wf_cons (c : Host.Cell) (m : Memory) :
    Memory.wf (c :: m) = true ↔ (∀ d ∈ m, c.1 < d.1) ∧ c.2 ≠ 0 ∧ m.wf = true := by
  simp only [Memory.wf_iff, List.pairwise_cons, List.mem_cons, forall_eq_or_imp]
  tauto

/-! ### Bytes -/

@[simp] theorem Memory.read_nil (a : Nat) : Memory.read [] a = 0 := rfl

theorem Memory.read_cons (c : Host.Cell) (m : Memory) (a : Nat) :
    Memory.read (c :: m) a = if c.1 = a then c.2 else m.read a := rfl

/-- An address that is not listed reads as zero. -/
theorem Memory.read_eq_zero (m : Memory) (a : Nat) (h : ∀ c ∈ m, c.1 ≠ a) : m.read a = 0 := by
  induction m with
  | nil => rfl
  | cons c m ih =>
    rw [Memory.read_cons, if_neg (h c List.mem_cons_self)]
    exact ih fun d hd => h d (List.mem_cons_of_mem _ hd)

/-- In the canonical form a listed byte is what is read. -/
theorem Memory.read_of_mem (m : Memory) (hm : m.wf = true) (c : Host.Cell) (h : c ∈ m) : m.read c.1 = c.2 := by
  induction m with
  | nil => cases h
  | cons d m ih =>
    obtain ⟨hd, -, hw⟩ := (Memory.wf_cons d m).mp hm
    rw [Memory.read_cons]
    rcases List.mem_cons.mp h with rfl | h'
    · rw [if_pos rfl]
    · rw [if_neg (hd c h').ne]
      exact ih hw h'

/-- What every address reads after a write: the value where it was written, as before elsewhere. -/
theorem Memory.read_write (m : Memory) (hm : m.wf = true) (a b : Nat) (v : Byte) :
    (m.write a v).read b = if b = a then v else m.read b := by
  induction m with
  | nil =>
    unfold Memory.write Memory.unlisted
    by_cases hv : v = 0
    · rw [if_pos hv, Memory.read_nil]
      split
      · exact hv.symm
      · rfl
    · rw [if_neg hv, Memory.read_cons]
      by_cases hb : b = a
      · rw [if_pos hb, if_pos hb.symm]
      · rw [if_neg hb, if_neg (Ne.symm hb)]
  | cons c m ih =>
    obtain ⟨hc, -, hw⟩ := (Memory.wf_cons c m).mp hm
    have ih := ih hw
    have hout : ∀ x, x ≤ c.1 → Memory.read m x = 0 := fun x hx =>
      Memory.read_eq_zero m x fun d hd => by have := hc d hd; omega
    unfold Memory.write Memory.unlisted
    split
    · rename_i hlt
      split
      · rename_i hv
        subst hv
        split
        · rename_i hb
          subst hb
          rw [Memory.read_cons, if_neg (by omega), hout b (by omega)]
        · rfl
      · by_cases hb : b = a
        · simp [Memory.read_cons, hb]
        · rw [Memory.read_cons, if_neg (Ne.symm hb), if_neg hb]
    · split
      · rename_i hlt heq
        split
        · rename_i hv
          by_cases hb : b = a
          · rw [if_pos hb, hv, hb, ← heq, hout _ (Nat.le_refl _)]
          · rw [if_neg hb, Memory.read_cons, if_neg (by omega)]
        · by_cases hb : b = a
          · simp [Memory.read_cons, hb]
          · rw [Memory.read_cons, if_neg (Ne.symm hb), if_neg hb, Memory.read_cons, if_neg (by omega)]
      · rename_i hlt hne
        rw [Memory.read_cons, ih, Memory.read_cons]
        by_cases hb : b = a
        · subst hb
          simp [hne]
        · simp [hb]

/-- A write lists no address but the one written and those listed before. -/
theorem Memory.mem_write (m : Memory) (a : Nat) (v : Byte) (c : Host.Cell) (h : c ∈ m.write a v) :
    c ∈ m ∨ (c = (a, v) ∧ v ≠ 0) := by
  induction m with
  | nil =>
    unfold Memory.write Memory.unlisted at h
    split at h <;> simp_all
  | cons d m ih =>
    unfold Memory.write Memory.unlisted at h
    split at h
    · split at h
      · exact .inl h
      · rcases List.mem_cons.mp h with h | h
        · exact .inr ⟨h, by assumption⟩
        · exact .inl h
    · split at h
      · split at h
        · exact .inl (List.mem_cons_of_mem _ h)
        · rcases List.mem_cons.mp h with h | h
          · exact .inr ⟨h, by assumption⟩
          · exact .inl (List.mem_cons_of_mem _ h)
      · rcases List.mem_cons.mp h with h | h
        · exact .inl (h ▸ List.mem_cons_self)
        · rcases ih h with h | h
          · exact .inl (List.mem_cons_of_mem _ h)
          · exact .inr h

/-- A write keeps the canonical form. -/
theorem Memory.wf_write (m : Memory) (hm : m.wf = true) (a : Nat) (v : Byte) : (m.write a v).wf = true := by
  induction m with
  | nil =>
    unfold Memory.write Memory.unlisted
    split
    · decide
    · rename_i hv
      exact (Memory.wf_cons _ _).mpr ⟨by simp, hv, Memory.wf_nil⟩
  | cons c m ih =>
    obtain ⟨hc, hc0, hw⟩ := (Memory.wf_cons c m).mp hm
    unfold Memory.write Memory.unlisted
    split
    · rename_i hlt
      split
      · exact hm
      · rename_i hv
        refine (Memory.wf_cons _ _).mpr ⟨fun d hd => ?_, hv, hm⟩
        rcases List.mem_cons.mp hd with rfl | hd
        · exact hlt
        · exact Nat.lt_trans hlt (hc d hd)
    · split
      · rename_i heq
        split
        · exact hw
        · rename_i hv
          exact (Memory.wf_cons _ _).mpr ⟨fun d hd => by have := hc d hd; simp only; omega, hv, hw⟩
      · refine (Memory.wf_cons _ _).mpr ⟨fun d hd => ?_, hc0, ih hw⟩
        rcases Memory.mem_write m a v d hd with hd | ⟨rfl, -⟩
        · exact hc d hd
        · simp only; omega

/-- Canonical memories that read alike are equal. -/
theorem Memory.ext_read {m n : Memory} (hm : m.wf = true) (hn : n.wf = true) (h : ∀ a, m.read a = n.read a) :
    m = n := by
  induction m generalizing n with
  | nil =>
    cases n with
    | nil => rfl
    | cons d n =>
      obtain ⟨-, hd, -⟩ := (Memory.wf_cons d n).mp hn
      have := h d.1
      rw [Memory.read_cons, if_pos rfl] at this
      exact absurd this.symm hd
  | cons c m ih =>
    obtain ⟨hc, hc0, hw⟩ := (Memory.wf_cons c m).mp hm
    cases n with
    | nil =>
      have := h c.1
      rw [Memory.read_cons, if_pos rfl] at this
      exact absurd this hc0
    | cons d n =>
      obtain ⟨hd, hd0, hw'⟩ := (Memory.wf_cons d n).mp hn
      have mz : ∀ x, x ≤ c.1 → Memory.read m x = 0 := fun x hx =>
        Memory.read_eq_zero m x fun e he => by have := hc e he; omega
      have nz : ∀ x, x ≤ d.1 → Memory.read n x = 0 := fun x hx =>
        Memory.read_eq_zero n x fun e he => by have := hd e he; omega
      have hcd : c.1 = d.1 := by
        rcases Nat.lt_trichotomy c.1 d.1 with hlt | heq | hlt
        · have := h c.1
          rw [Memory.read_cons, if_pos rfl, Memory.read_cons, if_neg (by omega), nz _ (by omega)] at this
          exact absurd this hc0
        · exact heq
        · have := h d.1
          rw [Memory.read_cons, if_neg (by omega), mz _ (by omega), Memory.read_cons, if_pos rfl] at this
          exact absurd this.symm hd0
      have h2 : c.2 = d.2 := by
        have := h c.1
        rwa [Memory.read_cons, if_pos rfl, Memory.read_cons, if_pos hcd.symm] at this
      have : c = d := Prod.ext hcd h2
      subst this
      congr 1
      apply ih hw hw'
      intro a
      by_cases ha : c.1 = a
      · rw [← ha, mz _ (Nat.le_refl _), nz _ (Nat.le_refl _)]
      · have := h a
        rwa [Memory.read_cons, if_neg ha, Memory.read_cons, if_neg ha] at this

/-! ### Words -/

theorem byteOf_readWord (m : Memory) (i t : Nat) (ht : t < 8) : byteOf (m.readWord i) t = m.read (8 * i + t) :=
  byteOf_wordOfBytes _ t ht

@[simp] theorem Memory.readWord_nil (i : Nat) : Memory.readWord [] i = 0 :=
  word_eq_zero_of_bytes fun t ht => by rw [byteOf_readWord _ _ _ ht, Memory.read_nil]

/-- The first `n` byte writes of a word write. -/
theorem Memory.foldl_write (m : Memory) (hm : m.wf = true) (i : Nat) (v : Word) (n : Nat) :
    ((List.range n).foldl (fun m t => m.write (8 * i + t) (byteOf v t)) m).wf = true ∧
      ∀ a, ((List.range n).foldl (fun m t => m.write (8 * i + t) (byteOf v t)) m).read a =
        if 8 * i ≤ a ∧ a < 8 * i + n then byteOf v (a - 8 * i) else m.read a := by
  induction n with
  | zero => exact ⟨hm, fun a => by simp⟩
  | succ n ih =>
    obtain ⟨hw, hr⟩ := ih
    simp only [List.range_succ, List.foldl_append, List.foldl_cons, List.foldl_nil]
    refine ⟨Memory.wf_write _ hw _ _, fun a => ?_⟩
    rw [Memory.read_write _ hw, hr]
    by_cases h1 : a = 8 * i + n
    · subst h1
      rw [if_pos rfl, if_pos (by omega)]
      congr 1
      omega
    · rw [if_neg h1]
      by_cases h2 : 8 * i ≤ a ∧ a < 8 * i + n
      · rw [if_pos h2, if_pos (by omega)]
      · rw [if_neg h2, if_neg (by omega)]

/-- A word write keeps the canonical form. -/
theorem Memory.wf_writeWord (m : Memory) (hm : m.wf = true) (i : Nat) (v : Word) : (m.writeWord i v).wf = true :=
  (Memory.foldl_write m hm i v 8).1

/-- What every byte reads after a word write: the word's eight bytes, and elsewhere as before. -/
theorem Memory.read_writeWord (m : Memory) (hm : m.wf = true) (i : Nat) (v : Word) (a : Nat) :
    (m.writeWord i v).read a = if 8 * i ≤ a ∧ a < 8 * i + 8 then byteOf v (a - 8 * i) else m.read a :=
  (Memory.foldl_write m hm i v 8).2 a

/-- What every word reads after a word write. -/
theorem Memory.readWord_writeWord (m : Memory) (hm : m.wf = true) (i j : Nat) (v : Word) :
    (m.writeWord i v).readWord j = if j = i then v else m.readWord j := by
  apply word_ext_bytes
  intro t ht
  rw [byteOf_readWord _ _ _ ht, Memory.read_writeWord m hm]
  by_cases h : j = i
  · subst h
    rw [if_pos (by omega), if_pos rfl]
    congr 1
    omega
  · rw [if_neg (by omega), if_neg h, byteOf_readWord _ _ _ ht]

/-- Memories that agree on every word agree on every byte. -/
theorem Memory.read_eq_of_readWord {m n : Memory} (i : Nat) (h : m.readWord i = n.readWord i) (a : Nat)
    (ha : a / 8 = i) : m.read a = n.read a := by
  have h1 := byteOf_readWord m i (a % 8) (by omega)
  have h2 := byteOf_readWord n i (a % 8) (by omega)
  rw [show 8 * i + a % 8 = a by omega] at h1 h2
  rw [← h1, ← h2, h]

/-- A word write lists no address outside the word written and those listed before. -/
theorem Memory.mem_writeWord_bound (m : Memory) (i : Nat) (v : Word) (len : Nat) (hi : i < len)
    (h : ∀ c ∈ m, c.1 < 8 * len) : ∀ c ∈ m.writeWord i v, c.1 < 8 * len := by
  have key : ∀ n ≤ 8, ∀ c ∈ (List.range n).foldl (fun m t => m.write (8 * i + t) (byteOf v t)) m,
      c.1 < 8 * len := by
    intro n
    induction n with
    | zero => intro _; simpa using h
    | succ n ih =>
      intro hn c hc
      simp only [List.range_succ, List.foldl_append, List.foldl_cons, List.foldl_nil] at hc
      rcases Memory.mem_write _ _ _ c hc with hc | ⟨rfl, -⟩
      · exact ih (by omega) c hc
      · simp only; omega
  exact key 8 (Nat.le_refl 8)

/-- A word with no listed byte is zero. -/
theorem Memory.readWord_eq_zero (m : Memory) (i : Nat) (h : ∀ c ∈ m, c.1 / 8 ≠ i) : m.readWord i = 0 := by
  apply word_eq_zero_of_bytes
  intro t ht
  rw [byteOf_readWord _ _ _ ht]
  exact Memory.read_eq_zero m _ fun c hc hca => h c hc (by omega)

theorem Memory.mem_listedWords (m : Memory) (i : Nat) : i ∈ m.listedWords ↔ ∃ c ∈ m, c.1 / 8 = i := by
  simp [Memory.listedWords]

theorem Memory.readWord_of_not_listed (m : Memory) (i : Nat) (h : i ∉ m.listedWords) : m.readWord i = 0 :=
  Memory.readWord_eq_zero m i fun c hc hci => h ((Memory.mem_listedWords m i).mpr ⟨c, hc, hci⟩)

theorem Memory.listedWords_lt (m : Memory) (len : Nat) (h : ∀ c ∈ m, c.1 < 8 * len) :
    ∀ j ∈ m.listedWords, j < len := by
  intro j hj
  obtain ⟨c, hc, rfl⟩ := (Memory.mem_listedWords m j).mp hj
  have := h c hc
  omega

theorem Memory.nodup_listedWords (m : Memory) : m.listedWords.Nodup := List.nodup_dedup _

/-! ### Aging -/

/-- A word-by-word update of a list of distinct words: each is rewritten once from its old value. -/
theorem Memory.foldl_writeWord (f : Word → Word) (js : List Nat) (hjs : js.Nodup) (len : Nat)
    (hlen : ∀ j ∈ js, j < len) (m : Memory) (hm : m.wf = true) (hb : ∀ c ∈ m, c.1 < 8 * len) :
    (js.foldl (fun m j => m.writeWord j (f (m.readWord j))) m).wf = true ∧
      (∀ c ∈ js.foldl (fun m j => m.writeWord j (f (m.readWord j))) m, c.1 < 8 * len) ∧
      ∀ j, (js.foldl (fun m j => m.writeWord j (f (m.readWord j))) m).readWord j =
        if j ∈ js then f (m.readWord j) else m.readWord j := by
  induction js generalizing m with
  | nil => exact ⟨hm, hb, fun j => by simp⟩
  | cons i js ih =>
    obtain ⟨hi, hn⟩ := List.nodup_cons.mp hjs
    obtain ⟨h1, h2, h3⟩ := ih hn (fun j hj => hlen j (List.mem_cons_of_mem _ hj)) (m.writeWord i (f (m.readWord i)))
      (Memory.wf_writeWord m hm _ _) (Memory.mem_writeWord_bound m i _ len (hlen i List.mem_cons_self) hb)
    refine ⟨h1, h2, fun j => ?_⟩
    rw [List.foldl_cons, h3 j, Memory.readWord_writeWord m hm]
    by_cases hji : j = i
    · subst hji
      simp [hi]
    · simp [hji]

/-- Aging keeps the canonical form. -/
theorem Memory.wf_halveAll (m : Memory) (hm : m.wf = true) : m.halveAll.wf = true := by
  obtain ⟨len, hlen⟩ : ∃ len, ∀ c ∈ m, c.1 < 8 * len := by
    refine ⟨(m.map fun c => c.1).sum + 1, fun c hc => ?_⟩
    have := List.single_le_sum (l := m.map fun c => c.1) (fun _ _ => Nat.zero_le _) c.1 (List.mem_map_of_mem hc)
    omega
  exact (Memory.foldl_writeWord halveLanes _ m.nodup_listedWords len (Memory.listedWords_lt m len hlen) m hm hlen).1

/-- Aging lists nothing beyond the table. -/
theorem Memory.halveAll_bound (m : Memory) (hm : m.wf = true) (len : Nat) (h : ∀ c ∈ m, c.1 < 8 * len) :
    ∀ c ∈ m.halveAll, c.1 < 8 * len :=
  (Memory.foldl_writeWord halveLanes _ m.nodup_listedWords len (Memory.listedWords_lt m len h) m hm h).2.1

/-- Aging halves every word lane by lane (R150), the words that list nothing among them. -/
theorem Memory.readWord_halveAll (m : Memory) (hm : m.wf = true) (len : Nat) (h : ∀ c ∈ m, c.1 < 8 * len) (j : Nat) :
    m.halveAll.readWord j = halveLanes (m.readWord j) := by
  have := (Memory.foldl_writeWord halveLanes _ m.nodup_listedWords len (Memory.listedWords_lt m len h) m hm h).2.2 j
  unfold Memory.halveAll
  rw [this]
  split
  · rfl
  · rename_i hj
    rw [Memory.readWord_of_not_listed m j hj, halveLanes_zero]

/-- The odd counters of the listed words are those of all words of the table (R150). -/
theorem Memory.oddCounters_eq (m : Memory) (len : Nat) (h : ∀ c ∈ m, c.1 < 8 * len) :
    m.oddCounters = ((List.range len).map fun j => oddLanes (m.readWord j)).sum := by
  have hr : ∀ (l : List Nat), l.Nodup → ∀ f : Nat → Nat, (l.map f).sum = ∑ j ∈ l.toFinset, f j := by
    intro l hl f
    rw [List.sum_toFinset f hl]
  unfold Memory.oddCounters
  rw [hr _ m.nodup_listedWords, hr _ List.nodup_range]
  apply Finset.sum_subset
  · intro j hj
    simp only [List.mem_toFinset, List.mem_range] at hj ⊢
    exact Memory.listedWords_lt m len h j hj
  · intro j _ hj
    rw [Memory.readWord_of_not_listed m j (by simpa using hj), oddLanes_zero]

end Sys2Proof.Machine
end

