-- ==== Sys2Proof/Laws/Sketch.lean ====
section
/-! SUPPORT. The sketch: where a key's counters lie, the four increments, the sum of the counters under every
update, and the sizes an `ENSURE` gives (42_sketch.md R142, R146, R147, R149, R150, R152). -/

namespace Sys2Proof.Machine

/-! ### A key's counters (R142) -/

theorem slotAt_word (counterHash : U32) (block i : Nat) :
    block + 2 * i ≤ (slotAt counterHash block i).word ∧ (slotAt counterHash block i).word ≤ block + 2 * i + 1 := by
  have h := (BitVec.extractLsb' 0 1 (counterHash.extractLsb' (8 * i) 8)).isLt
  simp only [slotAt]
  omega

theorem slotAt_ctr (counterHash : U32) (block i : Nat) : (slotAt counterHash block i).ctr < 16 :=
  (BitVec.extractLsb' 1 4 (counterHash.extractLsb' (8 * i) 8)).isLt

theorem mem_slots (p : Params) (ident mask : U32) (x : Slot) :
    x ∈ slots p ident mask ↔
      ∃ i < 4, slotAt (rehash p (spread p ident)) (blockBase (spread p ident) mask) i = x := by
  simp [slots, depth]

/-- A block starts no later than the mask allows. -/
theorem blockBase_le (blockHash mask : U32) : blockBase blockHash mask ≤ mask.toNat * 8 := by
  unfold blockBase blockWords
  rw [BitVec.toNat_and]
  exact Nat.mul_le_mul_right _ Nat.and_le_right

/-- The counters of a key lie in one block of eight words (R142). -/
theorem slots_word (p : Params) (ident mask : U32) (x : Slot) (hx : x ∈ slots p ident mask) :
    blockBase (spread p ident) mask ≤ x.word ∧ x.word ≤ blockBase (spread p ident) mask + 7 := by
  obtain ⟨i, hi, rfl⟩ := (mem_slots p ident mask x).mp hx
  have := slotAt_word (rehash p (spread p ident)) (blockBase (spread p ident) mask) i
  omega

theorem slots_ctr (p : Params) (ident mask : U32) (x : Slot) (hx : x ∈ slots p ident mask) : x.ctr < 16 := by
  obtain ⟨i, -, rfl⟩ := (mem_slots p ident mask x).mp hx
  exact slotAt_ctr _ _ i

/-- The four words are in rising order, hence pairwise distinct (R142). -/
theorem slots_pairwise (p : Params) (ident mask : U32) :
    (slots p ident mask).Pairwise fun x y => x.word < y.word := by
  unfold slots
  rw [List.pairwise_map]
  refine List.Pairwise.imp ?_ (List.pairwise_lt_range (n := depth))
  intro i j hij
  have hi := slotAt_word (rehash p (spread p ident)) (blockBase (spread p ident) mask) i
  have hj := slotAt_word (rehash p (spread p ident)) (blockBase (spread p ident) mask) j
  omega

@[simp] theorem slots_length (p : Params) (ident mask : U32) : (slots p ident mask).length = 4 := by
  simp [slots, depth]

/-- A key's counters lie in a table whose mask fits its length (R39 item 6, R142). -/
theorem slots_lt (p : Params) (ident mask : U32) (len : Nat) (h8 : 8 ≤ len) (hd : 8 ∣ len)
    (hm : mask.toNat = len / 8 - 1) (x : Slot) (hx : x ∈ slots p ident mask) : x.word < len := by
  have h1 := slots_word p ident mask x hx
  have h2 := blockBase_le (spread p ident) mask
  omega

/-! ### Readings (R148) -/

theorem foldr_min_le (rs : List Nat) : rs.foldr min ctrMax ≤ ctrMax := by
  induction rs with
  | nil => exact Nat.le_refl _
  | cons r rs ih => exact Nat.le_trans (Nat.min_le_right _ _) ih

/-- The estimate before the `+1` is at most 15. -/
theorem minReading_le (rs : List Nat) : minReading rs ≤ 15 := foldr_min_le rs

theorem minReading_le_of_mem (rs : List Nat) (r : Nat) (h : r ∈ rs) : minReading rs ≤ r := by
  unfold minReading
  induction rs with
  | nil => cases h
  | cons a rs ih =>
    rcases List.mem_cons.mp h with rfl | h
    · exact Nat.min_le_left _ _
    · exact Nat.le_trans (Nat.min_le_right _ _) (ih h)

theorem le_minReading (rs : List Nat) (n : Nat) (hn : n ≤ 15) (h : ∀ r ∈ rs, n ≤ r) : n ≤ minReading rs := by
  unfold minReading
  induction rs with
  | nil => exact hn
  | cons a rs ih =>
    exact Nat.le_min.mpr ⟨h a List.mem_cons_self, ih fun r hr => h r (List.mem_cons_of_mem _ hr)⟩

/-! ### The four increments (R149) -/

/-- The word a key's increments leave at `j`: the saturating add on the counters that lie in it. -/
def bumpedWord (m : Memory) (sl : List Slot) (j : Nat) : Word :=
  sl.foldl (fun w x => if x.word = j then addLane w x.ctr else w) (m.readWord j)

/-- What the increments of a list of counters do to the table. -/
theorem foldl_bumpSlot (sl : List Slot) (m : Memory) (b : Bool) (hm : m.wf = true) :
    (sl.foldl bumpSlot (m, b)).1.wf = true ∧
      (∀ j, (sl.foldl bumpSlot (m, b)).1.readWord j = bumpedWord m sl j) ∧
      (∀ len, (∀ x ∈ sl, x.word < len) → (∀ c ∈ m, c.1 < 8 * len) →
        ∀ c ∈ (sl.foldl bumpSlot (m, b)).1, c.1 < 8 * len) ∧
      (b = true → (sl.foldl bumpSlot (m, b)).2 = true) := by
  induction sl generalizing m b with
  | nil => exact ⟨hm, fun j => rfl, fun _ _ h => h, id⟩
  | cons x sl ih =>
    rw [List.foldl_cons]
    by_cases hx : counter (m.readWord x.word) x.ctr < ctrMax
    · have he : bumpSlot (m, b) x = (m.writeWord x.word (addLane (m.readWord x.word) x.ctr), true) := by
        simp [bumpSlot, hx]
      rw [he]
      obtain ⟨h1, h2, h3, h4⟩ := ih (m.writeWord x.word (addLane (m.readWord x.word) x.ctr)) true
        (Memory.wf_writeWord m hm _ _)
      refine ⟨h1, fun j => ?_, fun len hl hc => ?_, fun _ => h4 rfl⟩
      · rw [h2 j]
        unfold bumpedWord
        rw [List.foldl_cons, Memory.readWord_writeWord m hm]
        by_cases hj : x.word = j
        · subst hj
          simp
        · simp [hj, Ne.symm hj]
      · exact h3 len (fun y hy => hl y (List.mem_cons_of_mem _ hy))
          (Memory.mem_writeWord_bound m _ _ len (hl x List.mem_cons_self) hc)
    · have he : bumpSlot (m, b) x = (m, b) := by simp [bumpSlot, hx]
      rw [he]
      obtain ⟨h1, h2, h3, h4⟩ := ih m b hm
      refine ⟨h1, fun j => ?_, fun len hl hc => h3 len (fun y hy => hl y (List.mem_cons_of_mem _ hy)) hc, h4⟩
      rw [h2 j]
      unfold bumpedWord
      rw [List.foldl_cons]
      by_cases hj : x.word = j
      · subst hj
        simp [addLane, hx]
      · simp [hj]

theorem bumpAll_wf (m : Memory) (hm : m.wf = true) (sl : List Slot) : (bumpAll m sl).1.wf = true :=
  (foldl_bumpSlot sl m false hm).1

theorem bumpAll_bound (m : Memory) (hm : m.wf = true) (sl : List Slot) (len : Nat) (hl : ∀ x ∈ sl, x.word < len)
    (hc : ∀ c ∈ m, c.1 < 8 * len) : ∀ c ∈ (bumpAll m sl).1, c.1 < 8 * len :=
  (foldl_bumpSlot sl m false hm).2.2.1 len hl hc

/-- What every word reads after the increments. -/
theorem readWord_bumpAll (m : Memory) (hm : m.wf = true) (sl : List Slot) (j : Nat) :
    (bumpAll m sl).1.readWord j = bumpedWord m sl j :=
  (foldl_bumpSlot sl m false hm).2.1 j

/-- A word that holds none of the counters keeps its value. -/
theorem bumpedWord_of_not_mem (m : Memory) (sl : List Slot) (j : Nat) (h : ∀ x ∈ sl, x.word ≠ j) :
    bumpedWord m sl j = m.readWord j := by
  unfold bumpedWord
  generalize m.readWord j = w
  induction sl generalizing w with
  | nil => rfl
  | cons x sl ih =>
    rw [List.foldl_cons, if_neg (h x List.mem_cons_self)]
    exact ih (fun y hy => h y (List.mem_cons_of_mem _ hy)) w

/-- A word that holds one of the counters, the words being distinct, gets that one increment. -/
theorem bumpedWord_of_mem (m : Memory) (sl : List Slot) (hp : sl.Pairwise fun x y => x.word < y.word) (x : Slot)
    (hx : x ∈ sl) : bumpedWord m sl x.word = addLane (m.readWord x.word) x.ctr := by
  have skip : ∀ (l : List Slot) (w : Word), (∀ y ∈ l, y.word ≠ x.word) →
      l.foldl (fun w y => if y.word = x.word then addLane w y.ctr else w) w = w := by
    intro l
    induction l with
    | nil => intro w _; rfl
    | cons y l ih =>
      intro w h
      rw [List.foldl_cons, if_neg (h y List.mem_cons_self)]
      exact ih w fun z hz => h z (List.mem_cons_of_mem _ hz)
  unfold bumpedWord
  generalize m.readWord x.word = w
  induction sl generalizing w with
  | nil => cases hx
  | cons y sl ih =>
    obtain ⟨hy, hp'⟩ := List.pairwise_cons.mp hp
    rw [List.foldl_cons]
    rcases List.mem_cons.mp hx with rfl | hx
    · rw [if_pos rfl]
      exact skip sl _ fun z hz => Nat.ne_of_gt (hy z hz)
    · rw [if_neg (Nat.ne_of_lt (hy x hx))]
      exact ih hp' hx w

/-- No counter changed exactly when every counter was 15 (R149). -/
theorem bumpAll_changed (m : Memory) (hm : m.wf = true) (sl : List Slot)
    (hp : sl.Pairwise fun x y => x.word < y.word) :
    (bumpAll m sl).2 = sl.any fun x => decide (counter (m.readWord x.word) x.ctr < 15) := by
  have key : ∀ (sl : List Slot) (m' : Memory) (b : Bool), m'.wf = true →
      sl.Pairwise (fun x y => x.word < y.word) → (∀ x ∈ sl, m'.readWord x.word = m.readWord x.word) →
      (sl.foldl bumpSlot (m', b)).2 = (b || sl.any fun x => decide (counter (m.readWord x.word) x.ctr < 15)) := by
    intro sl
    induction sl with
    | nil => intro m' b _ _ _; simp
    | cons x sl ih =>
      intro m' b hm' hp hr
      obtain ⟨hx, hp'⟩ := List.pairwise_cons.mp hp
      rw [List.foldl_cons, List.any_cons, ← hr x List.mem_cons_self]
      by_cases h : counter (m'.readWord x.word) x.ctr < 15
      · have he : bumpSlot (m', b) x = (m'.writeWord x.word (addLane (m'.readWord x.word) x.ctr), true) := by
          simp [bumpSlot, ctrMax, h]
        rw [he, ih _ true (Memory.wf_writeWord m' hm' _ _) hp' ?_]
        · simp [h]
        · intro y hy
          rw [Memory.readWord_writeWord m' hm', if_neg (Nat.ne_of_gt (hx y hy))]
          exact hr y (List.mem_cons_of_mem _ hy)
      · have he : bumpSlot (m', b) x = (m', b) := by simp [bumpSlot, ctrMax, h]
        rw [he, ih m' b hm' hp' fun y hy => hr y (List.mem_cons_of_mem _ hy)]
        simp [h]
  have := key sl m false hm hp fun _ _ => rfl
  simpa [bumpAll] using this

/-- Where no counter changed the table is as before. -/
theorem bumpAll_unchanged (m : Memory) (sl : List Slot) (h : (bumpAll m sl).2 = false) : (bumpAll m sl).1 = m := by
  have mono : ∀ (sl : List Slot) (acc : Memory × Bool), acc.2 = true → (sl.foldl bumpSlot acc).2 = true := by
    intro sl
    induction sl with
    | nil => intro acc h; exact h
    | cons x sl ih =>
      intro acc h
      rw [List.foldl_cons]
      apply ih
      unfold bumpSlot
      split
      · rfl
      · exact h
  unfold bumpAll at *
  induction sl with
  | nil => rfl
  | cons x sl ih =>
    rw [List.foldl_cons] at *
    by_cases hx : counter (m.readWord x.word) x.ctr < ctrMax
    · have he : bumpSlot (m, false) x = (m.writeWord x.word (addLane (m.readWord x.word) x.ctr), true) := by
        simp [bumpSlot, hx]
      rw [he, mono sl _ rfl] at h
      exact absurd h (by decide)
    · have he : bumpSlot (m, false) x = (m, false) := by simp [bumpSlot, hx]
      rw [he] at h ⊢
      exact ih h

/-! ### The sum of the counters (R39 item 7, R152) -/

/-- The sum of a word's counters. -/
def wordSum (w : Word) : Nat := ((List.range 16).map (counter w)).sum

@[simp] theorem wordSum_zero : wordSum 0 = 0 := by decide

/-- A saturating add raises the word's sum by at most one. -/
theorem wordSum_addLane (w : Word) (c : Nat) (hc : c < 16) : wordSum (addLane w c) ≤ wordSum w + 1 := by
  unfold wordSum
  rw [List.map_congr_left fun d _ => counter_addLane w c d hc, List.sum_map_add]
  apply Nat.add_le_add_left
  have : ∀ n, ((List.range n).map fun d => if d = c ∧ counter w c < 15 then 1 else 0).sum ≤ if c < n then 1 else 0 := by
    intro n
    induction n with
    | zero => simp
    | succ n ih =>
      rw [List.range_succ, List.map_append, List.sum_append, List.map_singleton, List.sum_singleton]
      by_cases h : n = c
      · subst h
        simp only [Nat.lt_irrefl, if_false, Nat.le_zero] at ih
        rw [ih]
        split <;> simp
      · have : c < n ↔ c < n + 1 := by omega
        simp only [h, false_and, if_false, Nat.add_zero]
        simpa [this] using ih
  have := this 16
  rwa [if_pos hc] at this


theorem Memory.counterSum_eq (m : Memory) (len : Nat) :
    m.counterSum len = ∑ j ∈ Finset.range len, wordSum (m.readWord j) := by
  have h := List.sum_toFinset (fun j => wordSum (m.readWord j)) (List.nodup_range (n := len))
  rw [List.toFinset_range] at h
  exact h.symm

@[simp] theorem Memory.counterSum_nil (len : Nat) : Memory.counterSum [] len = 0 := by
  rw [Memory.counterSum_eq]
  exact Finset.sum_eq_zero fun j _ => by rw [Memory.readWord_nil]; exact wordSum_zero

/-- The sum after one word is rewritten. -/
theorem Memory.counterSum_writeWord (m : Memory) (hm : m.wf = true) (i : Nat) (v : Word) (len : Nat) (hi : i < len) :
    (m.writeWord i v).counterSum len + wordSum (m.readWord i) = m.counterSum len + wordSum v := by
  rw [Memory.counterSum_eq, Memory.counterSum_eq, ← Finset.add_sum_erase _ _ (Finset.mem_range.mpr hi),
    ← Finset.add_sum_erase (Finset.range len) (fun j => wordSum (m.readWord j)) (Finset.mem_range.mpr hi),
    Memory.readWord_writeWord m hm, if_pos rfl]
  have : ∑ j ∈ (Finset.range len).erase i, wordSum ((m.writeWord i v).readWord j) =
      ∑ j ∈ (Finset.range len).erase i, wordSum (m.readWord j) := by
    apply Finset.sum_congr rfl
    intro j hj
    rw [Memory.readWord_writeWord m hm, if_neg (Finset.ne_of_mem_erase hj)]
  rw [this]
  omega

/-- The increments of a list of counters raise the sum by at most one each (R152). -/
theorem counterSum_bumpAll (m : Memory) (hm : m.wf = true) (sl : List Slot) (len : Nat)
    (hl : ∀ x ∈ sl, x.word < len) (hc : ∀ x ∈ sl, x.ctr < 16) :
    (bumpAll m sl).1.counterSum len ≤ m.counterSum len + sl.length := by
  unfold bumpAll
  generalize false = b
  induction sl generalizing m b with
  | nil => exact Nat.le_refl _
  | cons x sl ih =>
    rw [List.foldl_cons, List.length_cons]
    have hl' := fun y hy => hl y (List.mem_cons_of_mem x hy)
    have hc' := fun y hy => hc y (List.mem_cons_of_mem x hy)
    by_cases hx : counter (m.readWord x.word) x.ctr < ctrMax
    · have he : bumpSlot (m, b) x = (m.writeWord x.word (addLane (m.readWord x.word) x.ctr), true) := by
        simp [bumpSlot, hx]
      have h1 := Memory.counterSum_writeWord m hm x.word (addLane (m.readWord x.word) x.ctr) len
        (hl x List.mem_cons_self)
      have h2 := wordSum_addLane (m.readWord x.word) x.ctr (hc x List.mem_cons_self)
      have h3 := ih (m.writeWord x.word (addLane (m.readWord x.word) x.ctr)) (Memory.wf_writeWord m hm _ _) hl' hc' true
      rw [he]
      omega
    · have he : bumpSlot (m, b) x = (m, b) := by simp [bumpSlot, hx]
      have := ih m hm hl' hc' b
      rw [he]
      omega

/-- The counters after aging and the odd counters make up the counters before (R152). -/
theorem counterSum_halveAll (m : Memory) (hm : m.wf = true) (len : Nat) (h : ∀ c ∈ m, c.1 < 8 * len) :
    2 * m.halveAll.counterSum len + m.oddCounters = m.counterSum len := by
  have ho : m.oddCounters = ∑ j ∈ Finset.range len, oddLanes (m.readWord j) := by
    rw [Memory.oddCounters_eq m len h, ← List.sum_toFinset _ List.nodup_range]
    simp [List.toFinset_range]
  rw [ho, Memory.counterSum_eq, Memory.counterSum_eq, Finset.mul_sum, ← Finset.sum_add_distrib]
  apply Finset.sum_congr rfl
  intro j _
  rw [Memory.readWord_halveAll m hm len h]
  exact sum_halveLanes _

/-! ### Sizes (R146, R147) -/

theorem npot_pow (x : Nat) : ∃ e, npot x = 2 ^ e := by
  unfold npot
  split
  · exact ⟨0, rfl⟩
  · exact ⟨_, rfl⟩

theorem le_npot (x : Nat) : x ≤ npot x := by
  unfold npot
  split
  · assumption
  · have := Nat.lt_log2_self (n := x - 1)
    omega

/-- `npot` is the least power of two not below its argument (R146). -/
theorem npot_le (x e : Nat) (h : x ≤ 2 ^ e) : npot x ≤ 2 ^ e := by
  unfold npot
  split
  · exact Nat.one_le_two_pow
  · apply Nat.pow_le_pow_right (by decide)
    have : Nat.log2 (x - 1) < e := (Nat.log2_lt (by omega)).mpr (by omega)
    omega

/-- The length of a table built for a clamped capacity (R24, R146). -/
theorem tableLenFor_eq (cap : Nat) (h : cap ≤ capMax) : ∃ j : Fin 28, tableLenFor cap = 8 * 2 ^ (j : Nat) := by
  obtain ⟨e, he⟩ := npot_pow cap
  have hle : npot cap ≤ 2 ^ 30 := npot_le cap 30 h
  have he30 : e ≤ 30 := by
    rw [he] at hle
    exact (Nat.pow_le_pow_iff_right (by decide)).mp hle
  unfold tableLenFor tblMin
  rw [he]
  by_cases h3 : e ≤ 3
  · refine ⟨0, ?_⟩
    have : 2 ^ e ≤ 2 ^ 3 := Nat.pow_le_pow_right (by decide) h3
    simp only [Fin.val_zero, Nat.pow_zero]
    omega
  · refine ⟨⟨e - 3, by omega⟩, ?_⟩
    have h8 : 8 * 2 ^ (e - 3) = 2 ^ e := by
      rw [show (8 : Nat) = 2 ^ 3 by rfl, ← Nat.pow_add]
      congr 1
      omega
    have : 2 ^ 3 ≤ 2 ^ e := Nat.pow_le_pow_right (by decide) (by omega)
    simp only
    omega

theorem le_tableLenFor (cap : Nat) : cap ≤ tableLenFor cap := Nat.le_trans (le_npot cap) (Nat.le_max_left _ _)

/-- A sample size is positive and below 2^31, or unbounded and 0 (R27, R147). -/
theorem sampleSizeFor_spec (cap : Nat) :
    ((sampleSizeFor cap).2 = false → 1 ≤ (sampleSizeFor cap).1.toNat ∧ (sampleSizeFor cap).1.toNat ≤ 2 ^ 31 - 1) ∧
      ((sampleSizeFor cap).2 = true → (sampleSizeFor cap).1 = 0) := by
  unfold sampleSizeFor
  split
  · decide
  · dsimp only
    split
    · simp
    · rename_i h
      refine ⟨fun _ => ?_, by simp⟩
      have hlt := (BitVec.ofNat 32 (sampleFactor * cap)).isLt
      rw [BitVec.toInt_eq_toNat_cond] at h
      dsimp only
      split at h <;> constructor <;> omega

end Sys2Proof.Machine
end

