-- ==== Sys2Proof/Laws/Invariant.lean ====
section
/-! SUPPORT. What the invariants of a good state give (every access lies inside its storage), and that every shared
operation keeps them (10_state.md R39, 42_sketch.md R152). -/

namespace Sys2Proof.Machine

/-! ### What the invariants give -/

theorem filterLength_pos (n : Nat) : 0 < filterLength n := Nat.succ_pos _

/-- The filter is at least as long as it has probes (R123). -/
theorem filterProbes_le_filterLength (n : Nat) : filterProbes ≤ filterLength n := by
  unfold filterProbes filterLength kappaNum kappaDen
  have : 1 ≤ max n 1 := Nat.le_max_right _ _
  omega

theorem State.Inv.fltM_pos {s : State} (h : s.Inv) (hf : s.fltInit = true) : 0 < s.fltM := by
  rw [(h.geometry hf).1]
  exact filterLength_pos _

/-- No probe leaves the bit array (R124, R164). -/
theorem State.Inv.probesInside {s : State} (h : s.Inv) (x : Word) : s.probesInside x = true :=
  State.probesInside_of_pos s x h.fltM_pos

/-- The table of an initialised engine is made of whole blocks (R24, R26). -/
theorem State.Inv.blocks {s : State} (h : s.Inv) (hi : s.init = true) : 8 ≤ s.tableLen ∧ 8 ∣ s.tableLen := by
  obtain ⟨j, hj⟩ := h.tableLength hi
  have : 1 ≤ 2 ^ (j : Nat) := Nat.one_le_two_pow
  exact ⟨by omega, by omega⟩

/-- No counter of a key leaves the table (R39 item 6, R164). -/
theorem State.Inv.slots_lt {s : State} (h : s.Inv) (hi : s.init = true) (p : Params) (ident : U32) :
    ∀ x ∈ slots p ident s.blockMask, x.word < s.tableLen := fun x hx =>
  Machine.slots_lt p ident s.blockMask s.tableLen (h.blocks hi).1 (h.blocks hi).2 (h.blockMask hi) x hx

theorem State.Inv.slotsInside {s : State} (h : s.Inv) (hi : s.init = true) (p : Params) (ident : U32) :
    s.slotsInside (slots p ident s.blockMask) = true := by
  simp only [State.slotsInside, List.all_eq_true, decide_eq_true_eq]
  exact h.slots_lt hi p ident

/-! ### What keeps them -/

theorem State.Inv.respond {s : State} (h : s.Inv) (st : Status) (v : Word) : (s.respond st v).Inv :=
  ⟨h.1, h.2, h.3, h.4, h.5, h.6, h.7, h.8, h.9, h.10, h.11⟩

theorem State.Inv.take {s : State} (h : s.Inv) (rest : List Input) : (s.take rest).Inv :=
  ⟨h.1, h.2, h.3, h.4, h.5, h.6, h.7, h.8, h.9, h.10, h.11⟩

/-- `put` keeps the invariants (R128). -/
theorem State.Inv.putBits {s : State} (h : s.Inv) (x : Word) : (s.putBits x).Inv := by
  constructor <;> try simp only [State.putBits_init, State.putBits_tableLen, State.putBits_table,
    State.putBits_blockMask, State.putBits_sampleSize, State.putBits_unbounded, State.putBits_size,
    State.putBits_fltInit, State.putBits_fltN, State.putBits_fltM, State.putBits_fltK]
  · intro hi
    obtain ⟨h1, h2, h3, h4, h5, h6, h7, h8, h9, h10, h11⟩ := h.uninitialised hi
    refine ⟨h1, h2, h3, h4, h5, h6, h7, h8, h9, h10, ?_⟩
    rw [State.putBits_bits, h7]
    exact h11
  · exact h.tableLength
  · exact h.blockMask
  · exact h.sample
  · exact h.unboundedSample
  · exact h.filterInit
  · exact h.geometry
  · exact h.filterCapacity
  · exact h.tableCanonical
  · refine ⟨State.wf_putBits s x h.bitsCanonical.1, fun j hj => ?_⟩
    rcases (State.mem_putBits s x j).mp hj with hj | ⟨hf, hj⟩
    · exact h.bitsCanonical.2 j hj
    · exact positions_lt _ _ x (h.fltM_pos hf) j hj
  · exact h.counterSum

/-- Under the invariants the growth test of the filter passes whenever the table is built (R125, conflict C9). -/
theorem State.Inv.filterEnsure_rebuilds {s : State} (h : s.Inv) (cap : Nat) (hc : s.covers cap = false) :
    s.filterEnsure cap =
      { s with
        fltM := filterLength cap
        fltK := filterProbes
        fltN := cap
        bits := []
        fltInit := true } := by
  unfold State.filterEnsure
  rw [if_neg]
  · rfl
  · intro hcon
    simp only [Bool.and_eq_true, decide_eq_true_eq] at hcon
    obtain ⟨hf, hle⟩ := hcon
    have hi : s.init = true := h.filterInit ▸ hf
    have := h.filterCapacity
    simp only [State.covers, hi, Bool.true_and, decide_eq_false_iff_not] at hc
    omega

/-- What `ENSURE` does with a non-negative capacity, under the invariants (R144 to R147): nothing when covered, else
every field of the engine at its new value. -/
theorem State.Inv.ensureCapacity_eq {s : State} (h : s.Inv) (ms : Nat) :
    s.ensureCapacity ms =
      if s.covers (min ms capMax) then s
      else
        { s with
          init := true
          tableLen := tableLenFor (min ms capMax)
          table := []
          blockMask := BitVec.ofNat 32 (tableLenFor (min ms capMax) / blockWords - 1)
          sampleSize := (sampleSizeFor (min ms capMax)).1
          unbounded := (sampleSizeFor (min ms capMax)).2
          size := 0
          fltInit := true
          fltN := min ms capMax
          fltM := filterLength (min ms capMax)
          fltK := filterProbes
          bits := [] } := by
  unfold State.ensureCapacity
  split
  · rfl
  · rename_i hc
    rw [h.filterEnsure_rebuilds _ (by simpa using hc)]
    rfl

/-- `ENSURE` keeps the invariants (R144 to R147). -/
theorem State.Inv.ensureCapacity {s : State} (h : s.Inv) (ms : Nat) : (s.ensureCapacity ms).Inv := by
  rw [h.ensureCapacity_eq]
  split
  · exact h
  · have hcap : min ms capMax ≤ capMax := Nat.min_le_right _ _
    generalize min ms capMax = cap at *
    obtain ⟨j, hj⟩ := tableLenFor_eq cap hcap
    have hj1 : 1 ≤ 2 ^ (j : Nat) := Nat.one_le_two_pow
    have hj2 : 2 ^ (j : Nat) ≤ 2 ^ 27 := Nat.pow_le_pow_right (by decide) (by omega)
    obtain ⟨hs1, hs2⟩ := sampleSizeFor_spec cap
    refine ⟨nofun, fun _ => ⟨j, hj⟩, fun _ => ?_, fun _ hu => ?_, hs2, rfl, fun _ => ⟨rfl, rfl⟩, le_tableLenFor cap,
      ⟨Memory.wf_nil, nofun⟩, ⟨rfl, nofun⟩, fun _ => ?_⟩
    · simp only [BitVec.toNat_ofNat, blockWords]
      rw [Nat.mod_eq_of_lt]
      omega
    · refine ⟨(hs1 hu).1, (hs1 hu).2, ?_⟩
      simp only
      exact (hs1 hu).1
    · simp

/-! ### Counting -/

/-- What an accepted increment does to `size` and the table (R149, R150): plus one, and when that reaches the sample
size, aging. -/
theorem State.accept_eq (s : State) :
    s.accept =
      if s.unbounded = false ∧ nextSize s.size = s.sampleSize then
        { s with
          table := s.table.halveAll
          size := BitVec.ofNat 32 (((nextSize s.size).toNat - s.table.oddCounters / 4) / 2) }
      else { s with size := nextSize s.size } := by
  unfold State.accept
  by_cases h : s.unbounded = false ∧ nextSize s.size = s.sampleSize
  · simp [h, State.age]
  · rw [if_neg h, if_neg]
    simpa using h

/-- `size` after an accepted increment, as a number (R149): one more, stopping at `2^32 - 1`. -/
theorem nextSize_toNat (size : U32) : (nextSize size).toNat = min (size.toNat + 1) (2 ^ 32 - 1) := by
  have := size.isLt
  unfold nextSize
  split
  · rw [BitVec.toNat_add, show (1 : U32).toNat = 1 by rfl, Nat.mod_eq_of_lt (by omega)]
    omega
  · omega

/-- With a bounded sample size, `size` never stops (R152). -/
theorem State.Inv.nextSize_toNat {s : State} (h : s.Inv) (hi : s.init = true) (hu : s.unbounded = false) :
    (nextSize s.size).toNat = s.size.toNat + 1 := by
  obtain ⟨-, h2, h3⟩ := h.sample hi hu
  rw [Machine.nextSize_toNat]
  omega

/-- Counting a key's four counters keeps the invariants (R149, R150, R152). -/
theorem State.Inv.count {s : State} (h : s.Inv) (hi : s.init = true) (p : Params) (ident : U32) :
    (s.count (slots p ident s.blockMask)).Inv := by
  have hm := h.tableCanonical.1
  have hb := h.tableCanonical.2
  have hw : (bumpAll s.table (slots p ident s.blockMask)).1.wf = true := bumpAll_wf s.table hm _
  have hwb := bumpAll_bound s.table hm (slots p ident s.blockMask) s.tableLen (h.slots_lt hi p ident) hb
  have hsum := counterSum_bumpAll s.table hm (slots p ident s.blockMask) s.tableLen (h.slots_lt hi p ident)
    (slots_ctr p ident s.blockMask)
  rw [slots_length] at hsum
  have hun := bumpAll_unchanged s.table (slots p ident s.blockMask)
  unfold State.count
  dsimp only
  split
  · generalize (bumpAll s.table (slots p ident s.blockMask)).1 = m at *
    rw [State.accept_eq]
    dsimp only
    split
    · rename_i hage
      obtain ⟨hu, hsz⟩ := hage
      obtain ⟨h1, h2, h3⟩ := h.sample hi hu
      have hn := h.nextSize_toNat hi hu
      have hS := h.counterSum (by omega)
      have hH := counterSum_halveAll m hw s.tableLen hwb
      have hss : s.sampleSize.toNat = s.size.toNat + 1 := by rw [← hsz, hn]
      have hsize : (BitVec.ofNat 32 (((nextSize s.size).toNat - m.oddCounters / 4) / 2)).toNat =
          (s.size.toNat + 1 - m.oddCounters / 4) / 2 := by
        rw [hn, BitVec.toNat_ofNat, Nat.mod_eq_of_lt]
        omega
      refine ⟨fun hc => absurd (hi.symm.trans hc) (by decide), h.tableLength, h.blockMask, fun _ _ => ⟨h1, h2, ?_⟩, h.unboundedSample,
        h.filterInit, h.geometry, h.filterCapacity, ⟨Memory.wf_halveAll m hw, Memory.halveAll_bound m hw _ hwb⟩,
        h.bitsCanonical, fun _ => ?_⟩
      · simp only [hsize]
        omega
      · simp only [hsize]
        omega
    · rename_i hage
      refine ⟨fun hc => absurd (hi.symm.trans hc) (by decide), h.tableLength, h.blockMask, fun _ hu => ?_, h.unboundedSample,
        h.filterInit, h.geometry, h.filterCapacity, ⟨hw, hwb⟩, h.bitsCanonical, fun hlt => ?_⟩
      · have hu' : s.unbounded = false := hu
        obtain ⟨h1, h2, h3⟩ := h.sample hi hu'
        have hn := h.nextSize_toNat hi hu'
        refine ⟨h1, h2, ?_⟩
        have : (nextSize s.size).toNat ≠ s.sampleSize.toNat := fun he => hage ⟨hu', BitVec.eq_of_toNat_eq he⟩
        simp only
        omega
      · simp only [Machine.nextSize_toNat] at hlt ⊢
        have := h.counterSum (by omega)
        omega
  · rename_i hch
    rw [hun (by simpa using hch)]
    exact h

end Sys2Proof.Machine
end

