-- ==== Sys2Proof/Laws/Commands.lean ====
section
/-! SUPPORT. What each command can answer, said once: an inversion lemma per meaning ("if it answers next t, then …"), and
how the commands with a stop behave where the invariants rule the stop out. -/

namespace Sys2Proof.Machine

/-! ### Inversion -/

theorem execFtest_next {h : Word} {s t : State} (e : execFtest h s = .next t) :
    s.probesInside h = true ∧ t = s.respond .ok (boolWord (s.mightContain h)) := by
  unfold execFtest at e
  split at e
  · cases e
    exact ⟨by assumption, rfl⟩
  · cases e

theorem execFput_next {h : Word} {s t : State} (e : execFput h s = .next t) :
    s.probesInside h = true ∧ t = (s.putBits h).respond .ok (boolWord (s.newlyObserved h)) := by
  unfold execFput at e
  split at e
  · cases e
    exact ⟨by assumption, rfl⟩
  · cases e

theorem execEnsure_next {ms : Word} {s t : State} (e : execEnsure ms s = .next t) :
    (ms.toInt < 0 ∧ t = s.respond .arg 0) ∨
      (0 ≤ ms.toInt ∧ t = (s.ensureCapacity ms.toNat).respond .ok 0) := by
  unfold execEnsure at e
  split at e <;> cases e
  · exact .inl ⟨by assumption, rfl⟩
  · exact .inr ⟨by omega, rfl⟩

/-- `FREQ` answers in one of three ways (R148). -/
theorem frequency_next {p : Params} {key : Key} {s t : State} (e : frequency p key s = .next t) :
    (s.init = false ∧ t = s.respond .ok 0) ∨
      (s.init = true ∧ s.mightContain (keyHash64 p key) = false ∧ t = s.respond .ok 0) ∨
      (s.init = true ∧ s.mightContain (keyHash64 p key) = true ∧
        s.slotsInside (slots p key.ident s.blockMask) = true ∧
        t = s.respond .ok (BitVec.ofNat 64 (minReading (s.readings (slots p key.ident s.blockMask)) + 1))) := by
  unfold frequency at e
  split at e
  · cases e
    exact .inl ⟨by simp_all, rfl⟩
  · split at e
    · cases e
    · split at e
      · cases e
        exact .inr (.inl ⟨by simp_all, by simp_all, rfl⟩)
      · split at e
        · cases e
        · cases e
          exact .inr (.inr ⟨by simp_all, by simp_all, by simp_all, rfl⟩)

/-- `INCR` goes on in one of three ways (R149). -/
theorem increment_next {p : Params} {key : Key} {s t : State} (e : increment p key s = .next t) :
    (s.init = false ∧ t = s.respond .ok 0) ∨
      (s.init = true ∧ s.newlyObserved (keyHash64 p key) = true ∧
        t = (s.putBits (keyHash64 p key)).respond .ok 0) ∨
      (s.init = true ∧ s.newlyObserved (keyHash64 p key) = false ∧
        s.slotsInside (slots p key.ident s.blockMask) = true ∧
        t = ((s.putBits (keyHash64 p key)).count (slots p key.ident s.blockMask)).respond .ok 0) := by
  unfold increment at e
  split at e
  · cases e
    exact .inl ⟨by simp_all, rfl⟩
  · split at e
    · cases e
    · split at e
      · cases e
        exact .inr (.inl ⟨by simp_all, by assumption, rfl⟩)
      · split at e
        · cases e
        · cases e
          exact .inr (.inr ⟨by simp_all, by simp_all, by simp_all, rfl⟩)

theorem execRdsr_next {r : U32} {s t : State} (e : execRdsr r s = .next t) :
    (∃ v, s.statusRegister r.toNat = some v ∧ t = s.respond .ok v) ∨
      (s.statusRegister r.toNat = none ∧ t = s.respond .range 0) := by
  unfold execRdsr at e
  split at e <;> cases e
  · exact .inl ⟨_, by assumption, rfl⟩
  · exact .inr ⟨by assumption, rfl⟩

theorem execRdtbl_next {idx : U32} {s t : State} (e : execRdtbl idx s = .next t) :
    ((s.init = false ∨ s.tableLen ≤ idx.toNat) ∧ t = s.respond .range 0) ∨
      (s.init = true ∧ idx.toNat < s.tableLen ∧ t = s.respond .ok (s.table.readWord idx.toNat)) := by
  unfold execRdtbl at e
  split at e <;> cases e
  · exact .inl ⟨by simp_all, rfl⟩
  · exact .inr ⟨by simp_all, by simp_all, rfl⟩

theorem execRdflt_next {q : U32} {s t : State} (e : execRdflt q s = .next t) :
    ((s.fltInit = false ∨ s.fltM ≤ 64 * q.toNat) ∧ t = s.respond .range 0) ∨
      (s.fltInit = true ∧ 64 * q.toNat < s.fltM ∧ t = s.respond .ok (s.filterGroup q.toNat)) := by
  unfold execRdflt at e
  split at e <;> cases e
  · exact .inl ⟨by simp_all, rfl⟩
  · exact .inr ⟨by simp_all, by simp_all, rfl⟩

/-- A register number has no register exactly from 8 up (R30). -/
theorem State.statusRegister_eq_none (s : State) (n : Nat) : s.statusRegister n = none ↔ 8 ≤ n := by
  match n with
  | 0 | 1 | 2 | 3 | 4 | 5 | 6 | 7 => simp [State.statusRegister]
  | n + 8 => simp [State.statusRegister]

/-! ### In a good state -/

/-- `FREQ` in a good state (R148). -/
theorem State.Inv.frequency_eq {s : State} (h : s.Inv) (p : Params) (key : Key) :
    frequency p key s = .next (s.respond .ok
      (if s.mightContain (keyHash64 p key) = true then
        BitVec.ofNat 64 (minReading (s.readings (slots p key.ident s.blockMask)) + 1) else 0)) := by
  unfold frequency
  cases hi : s.init
  · have : s.mightContain (keyHash64 p key) = false := by simp [State.mightContain, h.filterInit, hi]
    simp [this]
  · simp only [Bool.not_true, Bool.false_eq_true, if_false, h.probesInside, h.slotsInside hi, State.answer_eq]
    cases s.mightContain (keyHash64 p key) <;> simp

/-- `INCR` in a good, initialised state (R149). -/
theorem State.Inv.increment_eq {s : State} (h : s.Inv) (hi : s.init = true) (p : Params) (key : Key) :
    increment p key s = .next
      (if s.mightContain (keyHash64 p key) = true then (s.count (slots p key.ident s.blockMask)).respond .ok 0
      else (s.putBits (keyHash64 p key)).respond .ok 0) := by
  have hf : s.fltInit = true := h.filterInit.trans hi
  unfold increment
  simp only [hi, Bool.not_true, Bool.false_eq_true, if_false, h.probesInside, h.slotsInside hi, State.answer_eq,
    State.newlyObserved_eq, hf, Bool.true_and]
  cases hc : s.mightContain (keyHash64 p key)
  · simp
  · simp [State.putBits_of_mightContain s _ h.bitsCanonical.1 hc]

/-! ### Every command -/

/-- A command that goes on returns exactly one response, after those returned before, and leaves the host's events. -/
theorem exec_responds {i : Instr} {s t : State} (e : exec i s = .next t) :
    ∃ (u : State) (st : Status) (v : Word), t = u.respond st v ∧ u.responses = s.responses ∧ u.inputs = s.inputs ∧
      (st ≠ .ok → u = s ∧ v = 0) := by
  cases i with
  | spread x => cases e; exact ⟨s, _, _, rfl, rfl, rfl, fun h => absurd rfl h⟩
  | rehash x => cases e; exact ⟨s, _, _, rfl, rfl, rfl, fun h => absurd rfl h⟩
  | hash64 seed bytes => cases e; exact ⟨s, _, _, rfl, rfl, rfl, fun h => absurd rfl h⟩
  | hashstr absent bytes => cases e; exact ⟨s, _, _, rfl, rfl, rfl, fun h => absurd rfl h⟩
  | hashid x => cases e; exact ⟨s, _, _, rfl, rfl, rfl, fun h => absurd rfl h⟩
  | ftest h => exact ⟨s, _, _, (execFtest_next e).2, rfl, rfl, fun h => absurd rfl h⟩
  | fput h => exact ⟨s.putBits h, _, _, (execFput_next e).2, by simp, by simp, fun h => absurd rfl h⟩
  | ensure ms =>
    rcases execEnsure_next e with ⟨-, rfl⟩ | ⟨-, rfl⟩
    · exact ⟨s, _, _, rfl, rfl, rfl, fun _ => ⟨rfl, rfl⟩⟩
    · refine ⟨s.ensureCapacity ms.toNat, _, _, rfl, ?_, ?_, fun h => absurd rfl h⟩ <;>
        (unfold State.ensureCapacity; split <;> simp)
  | incr key =>
    rcases increment_next e with ⟨-, rfl⟩ | ⟨-, -, rfl⟩ | ⟨-, -, -, rfl⟩
    · exact ⟨s, _, _, rfl, rfl, rfl, fun h => absurd rfl h⟩
    · exact ⟨_, _, _, rfl, by simp, by simp, fun h => absurd rfl h⟩
    · exact ⟨_, _, _, rfl, by simp, by simp, fun h => absurd rfl h⟩
  | freq key =>
    rcases frequency_next e with ⟨-, rfl⟩ | ⟨-, -, rfl⟩ | ⟨-, -, -, rfl⟩ <;>
      exact ⟨s, _, _, rfl, rfl, rfl, fun h => absurd rfl h⟩
  | isninit => cases e; exact ⟨s, _, _, rfl, rfl, rfl, fun h => absurd rfl h⟩
  | rdsr r =>
    rcases execRdsr_next e with ⟨v, -, rfl⟩ | ⟨-, rfl⟩
    · exact ⟨s, _, _, rfl, rfl, rfl, fun h => absurd rfl h⟩
    · exact ⟨s, _, _, rfl, rfl, rfl, fun _ => ⟨rfl, rfl⟩⟩
  | rdtbl idx =>
    rcases execRdtbl_next e with ⟨-, rfl⟩ | ⟨-, -, rfl⟩
    · exact ⟨s, _, _, rfl, rfl, rfl, fun _ => ⟨rfl, rfl⟩⟩
    · exact ⟨s, _, _, rfl, rfl, rfl, fun h => absurd rfl h⟩
  | rdflt q =>
    rcases execRdflt_next e with ⟨-, rfl⟩ | ⟨-, -, rfl⟩
    · exact ⟨s, _, _, rfl, rfl, rfl, fun _ => ⟨rfl, rfl⟩⟩
    · exact ⟨s, _, _, rfl, rfl, rfl, fun h => absurd rfl h⟩

end Sys2Proof.Machine
end

