-- ==== Sys2Proof/Machine/Assembler.lean ====
section
/-! DEFINITION. The textual form of a command (30_encoding.md R83): one spelling of each, literals in
hexadecimal but for the signed operand of `ENSURE`, byte sequences as `hex:` digits (log entry 19). Every
text is exactly one packet; there are no pseudo-instructions (R84). -/

namespace Sys2Proof.Machine

/-- The low `n` hexadecimal digits of a number, most significant first. -/
def hexDigits (n v : Nat) : List Char :=
  match n with
  | 0 => []
  | k + 1 => hexDigits k (v / 16) ++ [(Nat.digitChar (v % 16)).toUpper]

/-- A 32-bit literal. -/
def literal32 (x : U32) : String := "0x" ++ String.ofList (hexDigits 8 x.toNat)

/-- A 64-bit literal. -/
def literal64 (x : Word) : String := "0x" ++ String.ofList (hexDigits 16 x.toNat)

/-- A byte sequence: two digits a byte, first byte first; `hex:` alone is the empty sequence. -/
def bytesText (bytes : List Byte) : String :=
  "hex:" ++ String.ofList (bytes.flatMap fun b => hexDigits 2 b.toNat)

/-- A key: `b(ident, bytes)`, `n(ident)` or `i(ident)`. -/
def keyText (key : Key) : String :=
  match key.path, key.absent with
  | .ident, _ => "i(" ++ literal32 key.ident ++ ")"
  | .bytes, true => "n(" ++ literal32 key.ident ++ ")"
  | .bytes, false => "b(" ++ literal32 key.ident ++ ", " ++ bytesText key.bytes ++ ")"

/-- A status register's name, or its number where it has none. -/
def registerText (r : U32) : String :=
  (["STATUS", "TBLLEN", "BLKMASK", "SAMPLE", "SIZE", "FLTM", "FLTK", "FLTN"][r.toNat]?).getD (literal32 r)

/-- The text of a command. -/
def instrText (i : Instr) : String :=
  match i with
  | .spread x => "SPREAD " ++ literal32 x
  | .rehash x => "REHASH " ++ literal32 x
  | .hash64 seed bytes => "HASH64 " ++ literal64 seed ++ ", " ++ bytesText bytes
  | .hashstr absent bytes => "HASHSTR " ++ (if absent then "null" else bytesText bytes)
  | .hashid x => "HASHID " ++ literal32 x
  | .ftest h => "FTEST " ++ literal64 h
  | .fput h => "FPUT " ++ literal64 h
  | .ensure ms => "ENSURE " ++ toString ms.toInt
  | .incr key => "INCR " ++ keyText key
  | .freq key => "FREQ " ++ keyText key
  | .isninit => "ISNINIT"
  | .rdsr r => "RDSR " ++ registerText r
  | .rdtbl idx => "RDTBL " ++ literal32 idx
  | .rdflt q => "RDFLT " ++ literal32 q

end Sys2Proof.Machine
end

