-- ==== Sys2Proof/Tests/Slice0.lean ====
section
/-! SUPPORT. Tests on fixed values, each expected value from the spec (95_test_vectors.md, cited by its own name, 30_encoding.md
R81 and R85) or worked out by hand from a rule, and a witness for the hypotheses of every statement that has any. -/

namespace Sys2Proof.Tests

open Sys2Proof Sys2Proof.Machine

/-! ### Ill-formed terms are refused, one per check of `WellFormed` -/

/-- Parameters with a small `KEYLEN_MAX`, to test its bound. -/
def shortParams : Params := { referenceParams with keylenMax := 2 }

/-- R77: longer than `KEYLEN_MAX`. -/
theorem test_refuses_long_bytes : (Instr.hash64 0 [1, 2, 3]).wellFormed shortParams = false := by decide
/-- R76: absent with bytes, in format B and in format K. -/
theorem test_refuses_absent_with_bytes : (Instr.hashstr true [1]).wellFormed referenceParams = false ∧
    (Instr.incr ⟨0, .bytes, true, [1]⟩).wellFormed referenceParams = false := by decide
/-- R76: the identity path with the absent flag. -/
theorem test_refuses_absent_identity : (Instr.freq ⟨0, .ident, true, []⟩).wellFormed referenceParams = false := by decide
/-- R76: the identity path with bytes. -/
theorem test_refuses_identity_with_bytes :
    (Instr.incr ⟨0, .ident, false, [1]⟩).wellFormed referenceParams = false := by decide
/-- R76, R77: the legal forms, the longest admitted sequence among them. -/
theorem test_admits_legal_forms : (Instr.freq ⟨0, .ident, false, []⟩).wellFormed shortParams = true ∧
    (Instr.incr ⟨0, .bytes, false, [1, 2]⟩).wellFormed shortParams = true ∧
    (Instr.hashstr true []).wellFormed shortParams = true := by decide

/-! ### Decoding: words written out from R71, R72 and R79, in part those of R85 and of 95_test_vectors.md -/

/-- Format I, every opcode of it (H2, H7, H27, R85, P1). -/
theorem test_decode_format_i :
    decode referenceParams ⟨0x0000000100000001, []⟩ = .ok (.spread 1) ∧
      decode referenceParams ⟨0x3AC85F9800000002, []⟩ = .ok (.rehash 0x3AC85F98) ∧
      decode referenceParams ⟨0xFFFFFFFF00000005, []⟩ = .ok (.hashid 0xFFFFFFFF) ∧
      decode referenceParams ⟨0x0000000800000030, []⟩ = .ok (.rdsr 8) ∧
      decode referenceParams ⟨0x0000001F00000031, []⟩ = .ok (.rdtbl 31) ∧
      decode referenceParams ⟨0x0000000200000032, []⟩ = .ok (.rdflt 2) := by
  refine ⟨?_, ?_, ?_, ?_, ?_, ?_⟩ <;> rfl

/-- Formats Z and W (P5, S-E14). -/
theorem test_decode_formats_z_and_w :
    decode referenceParams ⟨0x0000000000000023, []⟩ = .ok .isninit ∧
      decode referenceParams ⟨0x0000000000000010, [0x123456789ABCDEF0]⟩ = .ok (.ftest 0x123456789ABCDEF0) ∧
      decode referenceParams ⟨0x0000000000000011, [0x0000000300000000]⟩ = .ok (.fput 0x0000000300000000) ∧
      decode referenceParams ⟨0x0000000000000020, [0x8000000000000000]⟩ =
        .ok (.ensure (BitVec.ofInt 64 (-9223372036854775808))) := by
  refine ⟨?_, ?_, ?_, ?_⟩ <;> rfl

/-- Formats K, B and S: the three forms of a key, a string with a tail, a seed (P1, P3, H19, H22). -/
theorem test_decode_formats_with_bytes :
    decode referenceParams ⟨0x0000006100000022, [1, 0x61]⟩ = .ok (.freq ⟨0x61, .bytes, false, [0x61]⟩) ∧
      decode referenceParams ⟨0x0000000000000121, []⟩ = .ok (.incr ⟨0, .bytes, true, []⟩) ∧
      decode referenceParams ⟨0x0000000300000222, []⟩ = .ok (.freq ⟨3, .ident, false, []⟩) ∧
      decode referenceParams ⟨0x0000000000000004, [9, 0x6867666564636261, 0x69]⟩ =
        .ok (.hashstr false [0x61, 0x62, 0x63, 0x64, 0x65, 0x66, 0x67, 0x68, 0x69]) ∧
      decode referenceParams ⟨0x0000000000000003, [0x1234ABCD, 3, 0x636261]⟩ =
        .ok (.hash64 0x1234ABCD [0x61, 0x62, 0x63]) := by
  refine ⟨?_, ?_, ?_, ?_, ?_⟩ <;> rfl

/-- 95_test_vectors.md section 6, checks 1 to 3 of R80. -/
theorem test_decode_illegal_headers :
    decode referenceParams ⟨0x0000000000000000, []⟩ = .error .opcode ∧
      decode referenceParams ⟨0x0000000000000006, []⟩ = .error .opcode ∧
      decode referenceParams ⟨0x00000000000000FF, []⟩ = .error .opcode ∧
      decode referenceParams ⟨0x0000000000000423, []⟩ = .error .mustBeZero ∧
      decode referenceParams ⟨0x0000000100000023, []⟩ = .error .headerFields ∧
      decode referenceParams ⟨0x0000000100000020, [16]⟩ = .error .headerFields ∧
      decode referenceParams ⟨0x0000000000000120, [5]⟩ = .error .headerFields ∧
      decode referenceParams ⟨0x0000000000000105, []⟩ = .error .headerFields ∧
      decode referenceParams ⟨0x0000000000000204, []⟩ = .error .headerFields ∧
      decode referenceParams ⟨0x0000000000000321, []⟩ = .error .headerFields := by
  refine ⟨?_, ?_, ?_, ?_, ?_, ?_, ?_, ?_, ?_, ?_⟩ <;> rfl

/-- 95_test_vectors.md section 6, checks 4 to 6 of R80. -/
theorem test_decode_illegal_operands :
    decode referenceParams ⟨0x0000000000000020, []⟩ = .error .packetLength ∧
      decode referenceParams ⟨0x0000000000000003, [0]⟩ = .error .lenWord ∧
      decode referenceParams ⟨0x0000000000000004, [0x80000000]⟩ = .error .lenWord ∧
      decode referenceParams ⟨0x0000006100000021, [9, 0x6867666564636261]⟩ = .error .packetLength ∧
      decode referenceParams ⟨0x0000000000000004, [8, 0x6867666564636261, 0]⟩ = .error .packetLength ∧
      decode referenceParams ⟨0x0000000200000221, [0]⟩ = .error .packetLength ∧
      decode referenceParams ⟨0x0000006100000122, [1, 0x61]⟩ = .error .packetLength ∧
      decode referenceParams ⟨0x0000006100000021, [1, 0x6261]⟩ = .error .padding := by
  refine ⟨?_, ?_, ?_, ?_, ?_, ?_, ?_, ?_⟩ <;> rfl

/-- The encoder writes the words of R85. -/
theorem test_encode_examples :
    encode (.incr ⟨0x61, .bytes, false, [0x61]⟩) = ⟨0x0000006100000021, [1, 0x61]⟩ ∧
      encode (.incr ⟨2, .ident, false, []⟩) = ⟨0x0000000200000221, []⟩ ∧
      encode (.freq ⟨0, .bytes, true, []⟩) = ⟨0x0000000000000122, []⟩ ∧
      encode (.hash64 0x1234ABCD [0x61, 0x62, 0x63]) = ⟨0x0000000000000003, [0x1234ABCD, 3, 0x636261]⟩ := by decide

/-- The textual form of R83. -/
theorem test_text_examples : instrText (.ensure (-1)) = "ENSURE -1" ∧ instrText .isninit = "ISNINIT" := by
  constructor <;> decide +kernel

/-- Words numbered as the opcode table numbers them; operand words not given are zero. -/
theorem test_table_words : decodeTableWord 64 0x3 = some (.hash64 0 []) ∧
    decodeTableWord 64 0x6100000021 = some (.incr ⟨0x61, .bytes, false, []⟩) ∧
    decodeTableWord 128 (0x20 + 16 * 2 ^ 64) = some (.ensure 16) ∧ decodeTableWord 64 0x321 = none := by decide

/-! ### The hashes, under the reference parameters -/

/-- H1 to H6. -/
theorem test_spread_vectors : [0, 1, 0x61, 0xFFFFFFFF, 0x80000000, 2, 3].map (spread referenceParams) =
    [0, 0xC0E9B0E1, 0x3AC85F98, 0x3A048959, 0x70A6E014, 0x983D4DCB, 0xD583729B] := by decide
/-- H7 to H12. -/
theorem test_rehash_vectors :
    [0, 1, 0x3AC85F98, 0xC0E9B0E1, 0x80000000, 0xFFFFFFFF].map (rehash referenceParams) =
      [0, 0x31844DB9, 0x721EAAF5, 0x042741D6, 0x80020000, 0xCE784DB8] := by decide
/-- H13 to H15, H18, H19: nothing, one byte, one chunk, a chunk and a tail. -/
theorem test_hashstr_vectors : hashStr referenceParams true [] = 0 ∧
    hashStr referenceParams false [] = 0x742D0865AA627B0B ∧ hashStr referenceParams false [0x61] = 0x6EE2D45A1217E2FD ∧
    hashStr referenceParams false [0x61, 0x62, 0x63, 0x64, 0x65, 0x66, 0x67, 0x68] = 0x2050C16E4FCC5436 ∧
    hashStr referenceParams false [0x61, 0x62, 0x63, 0x64, 0x65, 0x66, 0x67, 0x68, 0x69] = 0xE2B217F2895DDCD0 := by
  decide
/-- H23 to H26. -/
theorem test_hash64_vectors : [[], [0x61], [0], [0, 0, 0, 0, 0, 0, 0, 0]].map (referenceParams.hash64 · 0) =
    [0, 0x071717D2D36B6B11, 0x5825F5F3BD962979, 0x7208F7FA198A2D81] := by decide
/-- H27, H28. -/
theorem test_hashid_vectors : [0, 1, 0x61, 0xFFFFFFFF].map referenceParams.idHash64 =
    [0xA2714B0EDEDB48B4, 0xE0D1EA47E763B586, 0x63F0C8AE3725C78A, 0x9B203E25351E4222] := by decide

/-! ### Operand selection -/

/-- The position vectors of 95_test_vectors.md section 3. -/
theorem test_positions_vectors : positions 9 6 0x0000000300000000 = [0, 3, 6, 0, 3, 6] ∧
    positions 9 6 0x0000000100000001 = [1, 2, 3, 4, 5, 6] ∧ positions 9 6 0xFFFFFFFFFFFFFFFF = [3, 6, 0, 3, 6, 0] ∧
    positions 9 6 0x123456789ABCDEF0 = [6, 6, 6, 6, 6, 6] ∧
    positions 131 6 0x6EE2D45A1217E2FD = [29, 122, 84, 46, 8, 101] := by decide
/-- The slot vectors of 95_test_vectors.md section 4. -/
theorem test_slots_vectors : slots referenceParams 0x61 1 = [⟨1, 10⟩, ⟨2, 5⟩, ⟨4, 15⟩, ⟨6, 9⟩] ∧
    slots referenceParams 1 1 = [⟨8, 11⟩, ⟨11, 0⟩, ⟨13, 3⟩, ⟨14, 2⟩] ∧
    slots referenceParams 2 0 = [⟨1, 4⟩, ⟨2, 4⟩, ⟨5, 15⟩, ⟨7, 8⟩] := by decide
/-- The slots of identity 0, for every value of the parameters (the first slot vector). -/
theorem test_slots_of_zero (p : Params) (mask : U32) :
    slots p 0 mask = [⟨0, 0⟩, ⟨2, 0⟩, ⟨4, 0⟩, ⟨6, 0⟩] := by
  have h1 : spread p 0 = 0 := by simp [spread]
  have h2 : rehash p 0 = 0 := by simp [rehash]
  have h3 : blockBase 0 mask = 0 := by simp [blockBase]
  simp only [slots]
  rw [h1, h2, h3]
  decide
/-- The `Age` vectors of 95_test_vectors.md section 4. -/
theorem test_age_vectors : [0x0000300000000004, 0x123456789ABCDEF0, 0xFFFFFFFFFFFFFFFF, 0x8888888888888888].map
    (fun w : Word => (halveLanes w, oddLanes w)) = [(0x0000100000000002, 1), (0x0112233445566770, 8),
      (0x7777777777777777, 16), (0x4444444444444444, 0)] := by decide

/-! ### The sample size at both ends of every row of R147 -/

/-- The `SampleSize` vectors of 95_test_vectors.md section 4: a witness for each row of `SampleSizeFollowsTheMap`. -/
theorem witness_SampleSizeFollowsTheMap : [0, 1, 214748364, 214748365, 429496729, 429496730, 644245094, 644245095,
    858993459, 858993460, 1073741823, 2 ^ 30].map sampleSizeFor =
      [(10, false), (10, false), (2147483640, false), (0, true), (0, true), (4, false), (2147483644, false), (0, true),
        (0, true), (8, false), (2147483638, false), (0, true)] := by decide

/-! ### Outcomes on fixed states -/

/-- Does an outcome go on in the given state? -/
def goesTo (o : Host.Outcome State Fault Refusal) (t : State) : Bool :=
  match o with
  | .next u => u == t
  | .fault _ => false
  | .refused _ => false

/-- Does an outcome stop with the given fault? -/
def stopsWith (o : Host.Outcome State Fault Refusal) (f : Fault) : Bool :=
  match o with
  | .next _ => false
  | .fault g => g == f
  | .refused _ => false

theorem next_of {o : Host.Outcome State Fault Refusal} {t : State} (h : goesTo o t = true) : o = .next t := by
  cases o <;> simp_all [goesTo]

theorem fault_of {o : Host.Outcome State Fault Refusal} {f : Fault} (h : stopsWith o f = true) : o = .fault f := by
  cases o <;> simp_all [stopsWith]

/-! ### Small states -/

/-- An engine that is not initialised, with one packet on the port. -/
def fresh : State := { State.reset with inputs := [.packet ⟨0x23, []⟩] }

/-- After `ENSURE 16` from reset (S-E2). -/
def built16 : State :=
  { State.reset with
    init := true, tableLen := 16, blockMask := 1, sampleSize := 160, fltInit := true, fltN := 16, fltM := 131, fltK := 6 }

/-- The filter then contains the hash 0, that of the absent key (P2). -/
def seen16 : State := { built16 with bits := [0] }

/-- The counters of the absent key of identity 0 are all 15 (P2). -/
def full16 : State := { seen16 with table := [(0, 15), (16, 15), (32, 15), (48, 15)], size := 15 }

/-- One accepted increment before aging. -/
def old16 : State := { seen16 with size := 159 }

/-- After `ENSURE 2^30` from reset, and the hash 0 (S-E15). -/
def huge : State :=
  { State.reset with
    init := true, tableLen := 2 ^ 30, blockMask := 134217727, unbounded := true, fltInit := true, fltN := 2 ^ 30,
    fltM := 8742796061, fltK := 6, bits := [0] }

/-- A built filter with no bits, and a table with no words: what R39 excludes. -/
def broken : State := { State.reset with init := true, fltInit := true, fltK := 1 }

/-- The same filter with one bit, which is set: the table alone is missing. -/
def noTable : State := { broken with fltM := 1, bits := [0] }

/-- The absent key with identity 0: its filter hash is 0 for every value of the parameters (R106, R108). -/
def nullKey : Key := ⟨0, .bytes, true, []⟩

theorem fresh_inv : fresh.Inv := by
  constructor <;> simp [fresh, State.reset, Memory.wf, BitArray.wf]

theorem built16_inv : built16.Inv := by
  refine ⟨nofun, fun _ => ⟨1, rfl⟩, fun _ => rfl, fun _ _ => ?_, nofun, rfl, fun _ => ?_, ?_, ?_, ?_, fun _ => ?_⟩
  · decide
  · decide
  · decide
  · exact ⟨rfl, nofun⟩
  · exact ⟨rfl, nofun⟩
  · simp [built16, State.reset]

theorem seen16_inv : seen16.Inv :=
  ⟨nofun, built16_inv.2, built16_inv.3, built16_inv.4, built16_inv.5, built16_inv.6, built16_inv.7, built16_inv.8,
    built16_inv.9, by decide, built16_inv.11⟩

theorem old16_inv : old16.Inv :=
  ⟨nofun, built16_inv.2, built16_inv.3, fun _ _ => by decide, built16_inv.5, built16_inv.6, built16_inv.7, built16_inv.8,
    built16_inv.9, seen16_inv.10, fun _ => by simp [old16, seen16, built16, State.reset]⟩

theorem full16_inv : full16.Inv :=
  ⟨nofun, built16_inv.2, built16_inv.3, fun _ _ => by decide, built16_inv.5, built16_inv.6, built16_inv.7, built16_inv.8,
    by decide, seen16_inv.10, fun _ => by decide +kernel⟩

theorem huge_inv : huge.Inv := by
  refine ⟨nofun, fun _ => ⟨27, rfl⟩, fun _ => by decide, nofun, fun _ => rfl, rfl, fun _ => by decide, by decide, ?_, ?_,
    fun _ => ?_⟩
  · exact ⟨rfl, nofun⟩
  · decide
  · simp [huge, State.reset]

/-! ### One step of each command -/

/-- H1, H7, H13: 0 from 0, whatever the parameters. -/
theorem test_exec_hashes_of_nothing : exec (.spread 0) State.reset = .next (State.reset.respond .ok 0) ∧
    exec (.rehash 0) State.reset = .next (State.reset.respond .ok 0) ∧
    exec (.hashstr true []) State.reset = .next (State.reset.respond .ok 0) := by
  refine ⟨?_, ?_, rfl⟩ <;> simp [exec, execSpread, execRehash, spread, rehash]
/-- R105, R110: the hash of the operands is answered. -/
theorem test_exec_hash64_hashid : exec (.hash64 7 [1]) fresh = .next (fresh.respond .ok (Config.hash64 [1] 7)) ∧
    exec (.hashid 3) fresh = .next (fresh.respond .ok (Config.idHash64 3)) := ⟨rfl, rfl⟩
/-- P5, steps 4 to 7, from the filter {0} of 9 bits. -/
theorem test_exec_fput_sets_probes :
    exec (.fput 0x0000000300000000) { built16 with fltM := 9, bits := [0] } =
      .next ({ built16 with fltM := 9, bits := [0, 3, 6] }.respond .ok 1) ∧
    exec (.rdflt 0) { built16 with fltM := 9, bits := [0, 3, 6] } =
      .next ({ built16 with fltM := 9, bits := [0, 3, 6] }.respond .ok 0x49) :=
  ⟨next_of (by decide), next_of (by decide)⟩
/-- P5, steps 8 and 12: a colliding item, and a false positive. -/
theorem test_exec_filter_collisions :
    exec (.fput 0xFFFFFFFFFFFFFFFF) { built16 with fltM := 9, bits := [0, 3, 6] } =
      .next ({ built16 with fltM := 9, bits := [0, 3, 6] }.respond .ok 0) ∧
    exec (.ftest 0x123456789ABCDEF0) { built16 with fltM := 9, bits := [0, 3, 6] } =
      .next ({ built16 with fltM := 9, bits := [0, 3, 6] }.respond .ok 1) :=
  ⟨next_of (by decide), next_of (by decide)⟩
/-- P4, steps 4 and 5. -/
theorem test_exec_filter_unbuilt : exec (.ftest 0) State.reset = .next (State.reset.respond .ok 0) ∧
    exec (.fput 0) State.reset = .next (State.reset.respond .ok 0) :=
  ⟨next_of (by decide), next_of (by decide)⟩
/-- S-E2, S-E14. -/
theorem test_exec_ensure : exec (.ensure 16) State.reset = .next (built16.respond .ok 0) ∧
    exec (.ensure (-1)) built16 = .next (built16.respond .arg 0) :=
  ⟨next_of (by decide), next_of (by decide)⟩
/-- S-E4, S-E5. -/
theorem test_exec_ensure_again : exec (.ensure 12) full16 = .next (full16.respond .ok 0) ∧
    exec (.ensure 17) full16 = .next ({ built16 with
      tableLen := 32, blockMask := 3, sampleSize := 170, fltN := 17, fltM := 139 }.respond .ok 0) :=
  ⟨next_of (by decide), next_of (by decide)⟩
/-- P1, steps 7 to 8, on the absent key: the first occurrence is absorbed, and the key then reads 1. -/
theorem test_exec_incr_absorbs : exec (.incr nullKey) built16 = .next (seen16.respond .ok 0) :=
  next_of (by decide)
/-- P2, any parameters: at 15 nothing changes, and the key reads 16. -/
theorem test_exec_incr_saturates : exec (.incr nullKey) full16 = .next (full16.respond .ok 0) ∧
    exec (.freq nullKey) full16 = .next (full16.respond .ok 16) := by
  refine ⟨next_of ?_, next_of ?_⟩ <;>
    simp only [exec, execIncr, execFreq, increment, frequency, nullKey, test_slots_of_zero] <;> decide
/-- P3, step 13: the counters 3 rise to 4, `size` reaches 10 and the engine ages with 8 odd counters. -/
theorem test_increment_ages :
    increment referenceParams ⟨0, .ident, false, []⟩ { built16 with
      tableLen := 8, blockMask := 0, sampleSize := 10, size := 9, fltN := 0, fltM := 9,
      bits := [0, 1, 3, 4, 5, 6, 7, 8],
      table := [(0, 3), (5, 0x30), (10, 3), (16, 3), (18, 3), (24, 3), (32, 3), (41, 0x30), (47, 0x30), (48, 3), (49, 3),
        (60, 3)] } =
    .next ({ built16 with
      tableLen := 8, blockMask := 0, sampleSize := 10, size := 4, fltN := 0, fltM := 9,
      bits := [0, 1, 3, 4, 5, 6, 7, 8],
      table := [(0, 2), (5, 0x10), (10, 1), (16, 2), (18, 1), (24, 1), (32, 2), (41, 0x10), (47, 0x10), (48, 2), (49, 1),
        (60, 1)] }.respond .ok 0) := next_of (by decide +kernel)
/-- P1, steps 13 and 16: the counters of `b(0x61, "a")` under the reference parameters. -/
theorem test_increment_counts :
    increment referenceParams ⟨0x61, .bytes, false, [0x61]⟩ { built16 with bits := [8, 29, 46, 84, 101, 122] } =
      .next ({ built16 with
        bits := [8, 29, 46, 84, 101, 122], size := 1, table := [(13, 1), (18, 0x10), (39, 0x10), (52, 0x10)] }.respond
          .ok 0) := next_of (by decide +kernel)
/-- P1, steps 2, 3, 6: before `ENSURE`, and before the first occurrence. -/
theorem test_exec_freq_of_the_unseen : exec (.freq nullKey) fresh = .next (fresh.respond .ok 0) ∧
    exec (.incr nullKey) fresh = .next (fresh.respond .ok 0) ∧
    exec (.freq nullKey) built16 = .next (built16.respond .ok 0) :=
  ⟨next_of (by decide), next_of (by decide), next_of (by decide)⟩
/-- P1, steps 1 and 5. -/
theorem test_exec_isninit : exec .isninit fresh = .next (fresh.respond .ok 1) ∧
    exec .isninit built16 = .next (built16.respond .ok 0) :=
  ⟨next_of (by decide), next_of (by decide)⟩
/-- S-E2, P4 step 20, S-E15. -/
theorem test_exec_rdsr : exec (.rdsr 0) built16 = .next (built16.respond .ok 5) ∧
    exec (.rdsr 3) built16 = .next (built16.respond .ok 160) ∧ exec (.rdsr 8) built16 = .next (built16.respond .range 0) ∧
    exec (.rdsr 0) huge = .next (huge.respond .ok 7) ∧ exec (.rdsr 5) huge = .next (huge.respond .ok 8742796061) :=
  ⟨next_of (by decide), next_of (by decide), next_of (by decide), next_of (by decide), next_of (by decide)⟩
/-- P1 step 16 (the word that holds bytes 0x10 at 5 and 1 at 13), P4 step 19. -/
theorem test_exec_rdtbl : exec (.rdtbl 1) { built16 with table := [(13, 1)] } =
      .next ({ built16 with table := [(13, 1)] }.respond .ok 0x0000010000000000) ∧
    exec (.rdtbl 16) built16 = .next (built16.respond .range 0) :=
  ⟨next_of (by decide), next_of (by decide)⟩
/-- P1 step 12, P4 step 25. -/
theorem test_exec_rdflt : exec (.rdflt 1) { built16 with bits := [8, 29, 46, 84, 101, 122] } =
      .next ({ built16 with bits := [8, 29, 46, 84, 101, 122] }.respond .ok 0x0400002000100000) ∧
    exec (.rdflt 3) built16 = .next (built16.respond .range 0) :=
  ⟨next_of (by decide), next_of (by decide)⟩
/-- P4, steps 8 and 9: illegal packets through the step; R201: a reset; R192: idle. -/
theorem test_step_events :
    step { built16 with inputs := [.packet ⟨0x20, []⟩] } = .next (built16.respond .illegal 0) ∧
      step { full16 with inputs := [.reset, .reset], responses := [⟨0, 1⟩] } =
        .next { State.reset with inputs := [.reset], responses := [⟨0, 1⟩] } ∧
      step { full16 with inputs := [.resetDuring ⟨0x121, []⟩] } = .next State.reset ∧
      step built16 = .next built16 :=
  ⟨next_of (by decide), next_of (by decide), next_of (by decide), next_of (by decide)⟩
/-- The host's way to run a word of the opcode table right after reset. -/
theorem test_step_withFetchWord :
    step (State.reset.withFetchWord 128 (0x20 + 16 * 2 ^ 64)) = .next (built16.respond .ok 0) := next_of (by decide)

/-! ### Witnesses: each statement's hypotheses are met -/

theorem witness_SpreadIsBijectiveForOddMultipliers :
    referenceParams.c1.getLsbD 0 = true ∧ referenceParams.c2.getLsbD 0 = true := by decide
theorem witness_HashAnswersDependOnThePacketAlone :
    [Instr.spread 1, .rehash 1, .hash64 1 [1], .hashstr false [1], .hashid 1].all
      (fun i => decide (i.opcode ∈ [Opcode.spread, .rehash, .hash64, .hashstr, .hashid])) = true := by decide
/-- The least capacities and the greatest, with the tabled values of R121. -/
theorem witness_FilterGeometryIsTheExactRealFormula : (0 ≤ 2 ^ 30 ∧ filterGeometry 0 = (9, 6)) ∧
    (1 ≤ 2 ^ 30 ∧ filterGeometry 1 = (9, 6)) ∧ 2 ^ 30 ≤ 2 ^ 30 ∧ filterGeometry (2 ^ 30) = (8742796061, 6) := by decide
theorem witness_FtestAnswersMembership : seen16.Inv ∧ fresh.Inv := ⟨seen16_inv, fresh_inv⟩
theorem witness_FputSetsTheProbedBits : built16.Inv ∧ fresh.Inv := ⟨built16_inv, fresh_inv⟩
theorem witness_FputLeavesNoFalseNegative : built16.Inv ∧ built16.fltInit = true := ⟨built16_inv, rfl⟩
theorem witness_FilterBitsAreClearedOnlyByRecreation : seen16.Inv ∧ exec (.ensure 17) seen16 = .next ({ built16 with
      tableLen := 32, blockMask := 3, sampleSize := 170, fltN := 17, fltM := 139 }.respond .ok 0) :=
  ⟨seen16_inv, next_of (by decide)⟩
/-- -1 and the least operand; 0 and the greatest; a table that covers exactly; an engine that covers nothing. -/
theorem witness_EnsureChecksClampsAndCovers : ((-1 : Word).toInt < 0 ∧ (0x8000000000000000 : Word).toInt < 0) ∧
    (0 ≤ (0 : Word).toInt ∧ 0 ≤ (0x7FFFFFFFFFFFFFFF : Word).toInt) ∧
    (0 ≤ (16 : Word).toInt ∧ built16.init = true ∧ min (16 : Word).toNat (2 ^ 30) ≤ built16.tableLen) ∧
    0 ≤ (0 : Word).toInt ∧ fresh.init = false := by decide
theorem witness_EnsureBuildsTableAndFilter : (fresh.Inv ∧ 0 ≤ (0 : Word).toInt ∧ fresh.init = false) ∧
    built16.Inv ∧ 0 ≤ (17 : Word).toInt ∧ built16.tableLen < min (17 : Word).toNat (2 ^ 30) :=
  ⟨⟨fresh_inv, by decide⟩, built16_inv, by decide⟩
theorem witness_GrowthForgetsEverything : seen16.Inv ∧ seen16.init = true ∧ 0 ≤ (17 : Word).toInt ∧
    seen16.tableLen < min (17 : Word).toNat (2 ^ 30) ∧ 0 ≤ (16 : Word).toInt ∧
    min (16 : Word).toNat (2 ^ 30) ≤ seen16.tableLen := ⟨seen16_inv, by decide⟩
theorem witness_NoCommandShrinksTheTable : built16.Inv ∧ exec (.ensure 12) built16 = .next (built16.respond .ok 0) :=
  ⟨built16_inv, next_of (by decide)⟩
/-- One witness for each of the four clauses. -/
theorem witness_InitIsSetByEnsureAndClearedByReset :
    (exec (.ensure (-1)) built16 = .next (built16.respond .arg 0) ∧ built16.init = true) ∧
      (exec (.ensure 16) State.reset = .next (built16.respond .ok 0) ∧ State.reset.init = false ∧
        (built16.respond .ok 0).init = true) ∧
      0 ≤ (0 : Word).toInt ∧ ({ built16 with inputs := [.reset] } : State).inputs = [.reset] :=
  ⟨⟨next_of (by decide), rfl⟩, ⟨next_of (by decide), rfl, rfl⟩, by decide⟩
theorem witness_CountersOfAKeyLieInOneBlock : built16.Inv ∧ built16.init = true := ⟨built16_inv, rfl⟩
/-- One witness for each of the three clauses. -/
theorem witness_FreqAnswersTheEstimate : (fresh.Inv ∧ fresh.init = false) ∧
    (built16.Inv ∧ built16.mightContain (keyHash64 Config.params nullKey) = false) ∧
    seen16.Inv ∧ seen16.mightContain (keyHash64 Config.params nullKey) = true :=
  ⟨⟨fresh_inv, rfl⟩, ⟨built16_inv, rfl⟩, seen16_inv, rfl⟩
theorem witness_KeyHashFollowsThePath : (nullKey.path = .bytes ∧ nullKey.absent = true) ∧
    ((⟨0, .bytes, false, []⟩ : Key).path = .bytes ∧ (⟨0, .bytes, false, []⟩ : Key).absent = false) ∧
    (⟨0, .ident, false, []⟩ : Key).path = .ident := by decide
theorem witness_FreqAnswersAtMostSixteen : full16.Inv := full16_inv
theorem witness_IncrBeforeEnsureIsANoOp : fresh.init = false := rfl
theorem witness_IncrOfANewKeyOnlySetsFilterBits : built16.Inv ∧ built16.init = true ∧
    built16.mightContain (keyHash64 Config.params nullKey) = false := ⟨built16_inv, rfl, rfl⟩

theorem seen16_contains : seen16.mightContain (keyHash64 Config.params nullKey) = true := rfl
theorem seen16_not_atSample : ¬ seen16.atSample := by
  rintro ⟨-, h⟩
  revert h
  decide

/-- One witness for each of the three clauses: no counter below 15; counted; counted and aged. -/
theorem witness_IncrCountsAKnownKey :
    (full16.Inv ∧ full16.init = true ∧ full16.mightContain (keyHash64 Config.params nullKey) = true ∧
        ¬ full16.acceptable (slots Config.params nullKey.ident full16.blockMask)) ∧
      (seen16.Inv ∧ seen16.init = true ∧ seen16.mightContain (keyHash64 Config.params nullKey) = true ∧
        seen16.acceptable (slots Config.params nullKey.ident seen16.blockMask) ∧ ¬ seen16.atSample) ∧
      (old16.Inv ∧ old16.init = true ∧ old16.mightContain (keyHash64 Config.params nullKey) = true ∧
        old16.acceptable (slots Config.params nullKey.ident old16.blockMask) ∧ old16.atSample) := by
  refine ⟨⟨full16_inv, rfl, rfl, ?_⟩, ⟨seen16_inv, rfl, rfl, ?_, seen16_not_atSample⟩,
    ⟨old16_inv, rfl, rfl, ?_, rfl, by decide⟩⟩ <;> simp only [State.acceptable, nullKey, test_slots_of_zero]
  · decide
  · exact ⟨⟨0, 0⟩, by simp, by decide⟩
  · exact ⟨⟨0, 0⟩, by simp, by decide⟩
/-- Byte 8, in word 1, is in none of the words 0, 2, 4, 6. -/
theorem witness_IncrLeavesOtherTableBytes : full16.Inv ∧ full16.init = true ∧ ¬ full16.atSample ∧
    exec (.incr nullKey) full16 = .next (full16.respond .ok 0) ∧
    ∀ x ∈ slots Config.params nullKey.ident full16.blockMask, ¬ (8 * x.word ≤ 8 ∧ 8 < 8 * x.word + 8) := by
  refine ⟨full16_inv, rfl, ?_, test_exec_incr_saturates.1, ?_⟩
  · rintro ⟨-, h⟩
    revert h
    decide
  · simp only [nullKey, test_slots_of_zero]
    decide
theorem witness_AgingNeverSubtractsBelowZero : old16.Inv ∧ old16.init = true ∧ old16.atSample :=
  ⟨old16_inv, rfl, rfl, by decide⟩
/-- A bounded sample size, the last count that cannot reach it, and the greatest estimate; an unbounded one. -/
theorem witness_RepeatedIncrementsRaiseTheEstimate :
    (full16.Inv ∧ full16.init = true ∧ full16.mightContain (keyHash64 Config.params nullKey) = true ∧
        full16.size.toNat + 144 < full16.sampleSize.toNat ∧ 15 ≤ 15 ∧
        exec (.freq nullKey) full16 = .next (full16.respond .ok (BitVec.ofNat 64 (15 + 1)))) ∧
      huge.Inv ∧ huge.init = true ∧ huge.mightContain (keyHash64 Config.params nullKey) = true ∧ huge.unbounded = true ∧
        0 ≤ 15 ∧ exec (.freq nullKey) huge = .next (huge.respond .ok (BitVec.ofNat 64 (0 + 1))) := by
  refine ⟨⟨full16_inv, rfl, rfl, by decide, by decide, test_exec_incr_saturates.2⟩, huge_inv, rfl, rfl, rfl, by decide, next_of ?_⟩
  simp only [exec, execFreq, frequency, nullKey, test_slots_of_zero]
  decide
/-- A command on another part of the state, and an `INCR` of the key itself, at 15. -/
theorem witness_NoQuietCommandLowersAnEstimate : full16.Inv ∧ full16.init = true ∧
    full16.mightContain (keyHash64 Config.params nullKey) = true ∧ 15 ≤ 15 ∧
    exec (.freq nullKey) full16 = .next (full16.respond .ok (BitVec.ofNat 64 (15 + 1))) ∧
    (¬ full16.forgetsOn (.ensure 16) ∧ exec (.ensure 16) full16 = .next (full16.respond .ok 0)) ∧
    ¬ full16.forgetsOn (.incr nullKey) ∧ exec (.incr nullKey) full16 = .next (full16.respond .ok 0) := by
  refine ⟨full16_inv, rfl, rfl, by decide, test_exec_incr_saturates.2, ⟨?_, next_of (by decide)⟩, ?_,
    test_exec_incr_saturates.1⟩
  · rintro ⟨-, h⟩
    revert h
    decide
  · rintro ⟨-, -, -, h⟩
    revert h
    decide
/-- Two commands, one of them an `INCR` of the key. -/
theorem witness_NoUndercountBetweenAgings : full16.Inv ∧ full16.init = true ∧
    full16.mightContain (keyHash64 Config.params nullKey) = true ∧
    full16.runsQuietly [.incr nullKey, .isninit] ((full16.respond .ok 0).respond .ok 0) := by
  refine ⟨full16_inv, rfl, rfl, ?_, _, test_exec_incr_saturates.1, id, _, rfl, rfl⟩
  rintro ⟨-, -, -, h⟩
  revert h
  decide
theorem witness_AgingShrinksEveryNonzeroCounter : old16.Inv ∧ old16.init = true ∧ old16.forgetsOn (.incr nullKey) := by
  refine ⟨old16_inv, rfl, rfl, ?_, rfl, by decide⟩
  simp only [State.acceptable, nullKey, test_slots_of_zero]
  exact ⟨⟨0, 0⟩, by simp, by decide⟩
theorem witness_FirstTwoOccurrencesReadOneThenTwo : 0 ≤ (0 : Word).toInt ∧ 0 ≤ (0x7FFFFFFFFFFFFFFF : Word).toInt := by
  decide
/-- Identity 0 lies in block 0, identity 1 in block 1 under the reference parameters (the slot vectors). -/
theorem witness_KeysOfOtherBlocksDoNotInterfere : full16.Inv ∧ full16.init = true ∧
    full16.mightContain (keyHash64 referenceParams nullKey) = true ∧ ¬ full16.atSample ∧
    blockBase (spread referenceParams nullKey.ident) full16.blockMask ≠
      blockBase (spread referenceParams (1 : U32)) full16.blockMask ∧
    increment referenceParams nullKey full16 = .next (full16.respond .ok 0) := by
  refine ⟨full16_inv, rfl, rfl, ?_, by decide, next_of (by decide +kernel)⟩
  rintro ⟨-, h⟩
  revert h
  decide
theorem witness_RdsrAnswersTheRegister : 3 ≤ 3 ∧ 8 ≤ (8 : U32).toNat ∧ 8 ≤ (0xFFFFFFFF : U32).toNat := by decide
theorem witness_RegistersHoldTheirNumbers : huge.Inv ∧ fresh.Inv := ⟨huge_inv, fresh_inv⟩
/-- The first word beyond the table and the last word of it. -/
theorem witness_RdtblAnswersTheWord : fresh.init = false ∧ built16.tableLen ≤ (16 : U32).toNat ∧ built16.init = true ∧
    (15 : U32).toNat < built16.tableLen := by decide
/-- 131 bits: group 2 is the last one. -/
theorem witness_RdfltAnswersTheGroup : fresh.fltInit = false ∧ built16.fltM ≤ 64 * (3 : U32).toNat ∧
    built16.fltInit = true ∧ 64 * (2 : U32).toNat < built16.fltM := by decide
theorem witness_ReadOnlyCommandsChangeNothing : (Instr.ftest 0).readOnly = true ∧
    exec (.ftest 0) seen16 = .next (seen16.respond .ok 1) := ⟨rfl, next_of (by decide)⟩
theorem witness_OnlyEnsureWritesTheGeometry : exec (.fput 0) built16 = .next (seen16.respond .ok 1) ∧
    (∀ ms, Instr.fput 0 ≠ .ensure ms) := ⟨next_of (by decide), nofun⟩
/-- A packet in error and one that is answered. -/
theorem witness_ErrorsLeaveTheEngineUnchanged :
    step { built16 with inputs := [.packet ⟨0x0000001000000031, []⟩] } = .next (built16.respond .range 0) ∧
      step { built16 with inputs := [.packet ⟨0x23, []⟩] } = .next (built16.respond .ok 0) :=
  ⟨next_of (by decide), next_of (by decide)⟩
/-- The four status codes. -/
theorem witness_EachStatusHasItsCause :
    step { built16 with inputs := [.packet ⟨0x23, []⟩] } = .next (built16.respond .ok 0) ∧
      step { built16 with inputs := [.packet ⟨0x0, []⟩] } = .next (built16.respond .illegal 0) ∧
      step { built16 with inputs := [.packet ⟨0x20, [0xFFFFFFFFFFFFFFFB]⟩] } = .next (built16.respond .arg 0) ∧
      step { built16 with inputs := [.packet ⟨0x0000000800000030, []⟩] } = .next (built16.respond .range 0) :=
  ⟨next_of (by decide), next_of (by decide), next_of (by decide), next_of (by decide)⟩
/-- A state for each side of each clause: with no filter bits, and with a filter bit and no table. -/
theorem witness_StopsExactlyOutsideStorage : exec (.ftest 0) broken = .fault .filterBounds ∧
    exec (.fput 0) broken = .fault .filterBounds ∧ exec (.freq nullKey) broken = .fault .filterBounds ∧
    exec (.incr nullKey) broken = .fault .filterBounds ∧ 0 < noTable.fltM ∧
    exec (.freq nullKey) noTable = .fault .tableBounds ∧ exec (.incr nullKey) noTable = .fault .tableBounds := by
  refine ⟨fault_of (by decide), fault_of (by decide), fault_of (by decide), fault_of (by decide), by decide,
    fault_of ?_, fault_of ?_⟩ <;>
    simp only [exec, execIncr, execFreq, increment, frequency, nullKey, test_slots_of_zero] <;> decide
theorem witness_DecodeOfEncodeIsTheCommand :
    (Instr.incr ⟨0x61, .bytes, false, [0x61]⟩).wellFormed referenceParams = true ∧
      (Instr.hash64 1 []).wellFormed shortParams = true := by decide
theorem witness_EncodeOfDecodeIsThePacket :
    decode referenceParams ⟨0x0000006100000021, [1, 0x61]⟩ = .ok (.incr ⟨0x61, .bytes, false, [0x61]⟩) := rfl
theorem witness_WorkedEncodingsDecode : 9 ≤ referenceParams.keylenMax := by decide
theorem witness_UnassignedOpcodesAreIllegal : ∀ op : Opcode, headerOpc 0x06 ≠ op.code := by
  intro op
  cases op <;> decide
theorem witness_LegalHeadersMatchTheirRow : decode referenceParams ⟨0x0000000300000222, []⟩ =
      .ok (.freq ⟨3, .ident, false, []⟩) ∧ (0x0000000300000222 : Word) &&& rowMask .k = rowMatch .freq := ⟨rfl, by decide⟩
/-- One packet for each of the seven clauses. -/
theorem witness_MalformedPacketsAreIllegal :
    headerMbz 0x423 ≠ 0 ∧ (headerA 0x321 = true ∧ headerP 0x321 = true) ∧
      (headerA 0x120 = true ∧ Opcode.ensure.format ≠ .k ∧ Opcode.ensure.format ≠ .b) ∧
      (headerP 0x204 = true ∧ Opcode.hashstr.format ≠ .k) ∧
      (headerImm 0x0000000100000023 ≠ 0 ∧ Opcode.isninit.format ≠ .i ∧ Opcode.isninit.format ≠ .k) ∧
      (carriesBytes .b 0x4 = true ∧ referenceParams.keylenMax < lenOf .b [0x80000000]) ∧
      ([] : List Word).length ≠ operandCount .w ⟨0x20, []⟩ := by decide
theorem witness_StepRunsTheDecodedCommand : ({ built16 with inputs := [.packet ⟨0x23, []⟩] } : State).inputs =
      .packet ⟨0x23, []⟩ :: [] ∧ decode Config.params ⟨0x23, []⟩ = .ok .isninit := ⟨rfl, rfl⟩
theorem witness_StepAnswersIllegalPackets : ({ built16 with inputs := [.packet ⟨0x321, []⟩] } : State).inputs =
      .packet ⟨0x321, []⟩ :: [] ∧ decode Config.params ⟨0x321, []⟩ = .error .headerFields := ⟨rfl, rfl⟩
theorem witness_ResetInputDiscardsEverything : ({ full16 with inputs := [.reset] } : State).inputs = [.reset] ∧
    ({ full16 with inputs := [.resetDuring ⟨0x121, []⟩] } : State).inputs = [.resetDuring ⟨0x121, []⟩] := ⟨rfl, rfl⟩
theorem witness_ResetIsTheCreatedState : (0 : U32).toNat < 8 ∧ (7 : U32).toNat < 8 := by decide
theorem witness_IdleEngineHoldsItsState : full16.inputs = [] := rfl
theorem witness_EveryStepKeepsTheInvariants : fresh.Inv ∧ step fresh = .next (State.reset.respond .ok 1) :=
  ⟨fresh_inv, next_of (by decide)⟩
theorem witness_NoStepStopsFromAGoodState : full16.Inv := full16_inv
theorem witness_EveryPacketOfARunIsAnswered : fresh.Inv ∧ ∀ e ∈ fresh.inputs, e.isPacket = true :=
  ⟨fresh_inv, by decide⟩

end Sys2Proof.Tests
end

/-! # The engine's state: effects of commands and steps, and the statements about 10_state.md

`Effect` says once what a command that goes on does to the engine, `step_cases` what a step does. The
statements about the invariants, the table's length and `init` are derived from these two. -/

namespace Sys2Proof.Machine

/-! ### What a command can do to the engine -/

/-- `Effect s i u`: executing `i` in `s` may bring the engine to `u`, before the response is returned. Only `FPUT`,
`ENSURE` of a non-negative operand and `INCR` on an initialised engine write anything (R57, R165). -/
inductive Effect (s : State) : Instr → State → Prop
  /-- Nothing changes. -/
  | unchanged (i : Instr) : Effect s i s
  /-- `FPUT` sets the probed bits (R129). -/
  | put (h : Word) : Effect s (.fput h) (s.putBits h)
  /-- `ENSURE` of a non-negative operand ensures the capacity (R144). -/
  | ensured (ms : Word) (hms : 0 ≤ ms.toInt) : Effect s (.ensure ms) (s.ensureCapacity ms.toNat)
  /-- `INCR` of a key new to the filter only sets its bits (R149, step 3). -/
  | doorkept (key : Key) (hi : s.init = true) : Effect s (.incr key) (s.putBits (keyHash64 Config.params key))
  /-- `INCR` of a known key counts it (R149, steps 4 and 5). -/
  | counted (key : Key) (hi : s.init = true) : Effect s (.incr key)
      ((s.putBits (keyHash64 Config.params key)).count (slots Config.params key.ident s.blockMask))

/-- A command that goes on has one of the effects and returns one response. -/
theorem exec_effect {i : Instr} {s t : State} (e : exec i s = .next t) :
    ∃ (u : State) (st : Status) (v : Word), Effect s i u ∧ t = u.respond st v := by
  cases i with
  | spread x => cases e; exact ⟨s, _, _, .unchanged _, rfl⟩
  | rehash x => cases e; exact ⟨s, _, _, .unchanged _, rfl⟩
  | hash64 seed bytes => cases e; exact ⟨s, _, _, .unchanged _, rfl⟩
  | hashstr absent bytes => cases e; exact ⟨s, _, _, .unchanged _, rfl⟩
  | hashid x => cases e; exact ⟨s, _, _, .unchanged _, rfl⟩
  | ftest h => exact ⟨s, _, _, .unchanged _, (execFtest_next e).2⟩
  | fput h => exact ⟨_, _, _, .put h, (execFput_next e).2⟩
  | ensure ms =>
    rcases execEnsure_next e with ⟨-, rfl⟩ | ⟨hms, rfl⟩
    · exact ⟨s, _, _, .unchanged _, rfl⟩
    · exact ⟨_, _, _, .ensured ms hms, rfl⟩
  | incr key =>
    rcases increment_next e with ⟨-, rfl⟩ | ⟨hi, -, rfl⟩ | ⟨hi, -, -, rfl⟩
    · exact ⟨s, _, _, .unchanged _, rfl⟩
    · exact ⟨_, _, _, .doorkept key hi, rfl⟩
    · exact ⟨_, _, _, .counted key hi, rfl⟩
  | freq key =>
    rcases frequency_next e with ⟨-, rfl⟩ | ⟨-, -, rfl⟩ | ⟨-, -, -, rfl⟩ <;> exact ⟨s, _, _, .unchanged _, rfl⟩
  | isninit => cases e; exact ⟨s, _, _, .unchanged _, rfl⟩
  | rdsr r =>
    rcases execRdsr_next e with ⟨v, -, rfl⟩ | ⟨-, rfl⟩ <;> exact ⟨s, _, _, .unchanged _, rfl⟩
  | rdtbl idx =>
    rcases execRdtbl_next e with ⟨-, rfl⟩ | ⟨-, -, rfl⟩ <;> exact ⟨s, _, _, .unchanged _, rfl⟩
  | rdflt q =>
    rcases execRdflt_next e with ⟨-, rfl⟩ | ⟨-, -, rfl⟩ <;> exact ⟨s, _, _, .unchanged _, rfl⟩

/-! ### What a step does with the host's next event -/

theorem step_idle {s : State} (hin : s.inputs = []) : step s = .next s := by
  simp [step, hin]

theorem step_decoded {s : State} {pk : Packet} {rest : List Input} {i : Instr} (hin : s.inputs = .packet pk :: rest)
    (hd : decodePacket pk = some i) : step s = exec i (s.take rest) := by
  simp [step, hin, hd]

theorem step_rejected {s : State} {pk : Packet} {rest : List Input} (hin : s.inputs = .packet pk :: rest)
    (hd : decodePacket pk = none) : step s = .next ((s.take rest).respond .illegal 0) := by
  simp [step, hin, hd]

theorem step_reset {s : State} {rest : List Input} (hin : s.inputs = .reset :: rest) :
    step s = .next (s.take rest).hardReset := by
  simp [step, hin]

theorem step_resetDuring {s : State} {pk : Packet} {rest : List Input} (hin : s.inputs = .resetDuring pk :: rest) :
    step s = .next (s.take rest).hardReset := by
  simp [step, hin]

/-- A step does nothing, executes a command, rejects a packet or resets the engine. -/
theorem step_cases (s : State) :
    step s = .next s ∨ (∃ i rest, step s = exec i (s.take rest)) ∨
      (∃ rest, step s = .next ((s.take rest).respond .illegal 0)) ∨ ∃ rest, step s = .next (s.take rest).hardReset := by
  match hin : s.inputs with
  | [] => exact .inl (step_idle hin)
  | .packet pk :: rest =>
    cases hd : decodePacket pk with
    | some i => exact .inr (.inl ⟨i, rest, step_decoded hin hd⟩)
    | none => exact .inr (.inr (.inl ⟨rest, step_rejected hin hd⟩))
  | .reset :: rest => exact .inr (.inr (.inr ⟨rest, step_reset hin⟩))
  | .resetDuring _ :: rest => exact .inr (.inr (.inr ⟨rest, step_resetDuring hin⟩))

/-! ### The invariants at reset and under every step (R39) -/

/-- The state after reset is uninitialised and has no storage, so every item about an initialised engine is void. -/
theorem State.reset_inv : State.reset.Inv where
  uninitialised _ := ⟨rfl, rfl, rfl, rfl, rfl, rfl, rfl, rfl, rfl, rfl, rfl⟩
  tableLength := nofun
  blockMask := nofun
  sample := nofun
  unboundedSample := nofun
  filterInit := rfl
  geometry := nofun
  filterCapacity := Nat.le_refl 0
  tableCanonical := ⟨Memory.wf_nil, nofun⟩
  bitsCanonical := ⟨rfl, nofun⟩
  counterSum _ := by simp [State.reset]

/-- The reset input leads to a good state from every state: the kept events and responses are not engine state. -/
theorem State.hardReset_inv (s : State) : s.hardReset.Inv := { State.reset_inv with }

/-- Every effect of a command keeps the invariants. -/
theorem Effect.inv {s u : State} {i : Instr} (he : Effect s i u) (h : s.Inv) : u.Inv := by
  cases he with
  | unchanged => exact h
  | put x => exact h.putBits x
  | ensured ms _ => exact h.ensureCapacity ms.toNat
  | doorkept key _ => exact h.putBits _
  | counted key hi =>
    have hc := (h.putBits (keyHash64 Config.params key)).count (by simpa using hi) Config.params key.ident
    rwa [State.putBits_blockMask] at hc

theorem exec_inv {i : Instr} {s t : State} (h : s.Inv) (e : exec i s = .next t) : t.Inv := by
  obtain ⟨u, st, v, he, rfl⟩ := exec_effect e
  exact (he.inv h).respond st v

theorem step_inv {s t : State} (h : s.Inv) (e : step s = .next t) : t.Inv := by
  rcases step_cases s with hs | ⟨i, rest, hs⟩ | ⟨rest, hs⟩ | ⟨rest, hs⟩ <;> rw [hs] at e
  · cases e
    exact h
  · exact exec_inv (h.take rest) e
  · cases e
    exact (h.take rest).respond _ _
  · cases e
    exact State.hardReset_inv _

/-! ### Progress (R164, R185) -/

/-- In a good state every command goes on: the probes and the counters that `FTEST`, `FPUT`, `FREQ` and `INCR` reach lie
inside their storage, and no other command accesses storage it has not checked. -/
theorem State.Inv.exec_next {s : State} (h : s.Inv) (i : Instr) : ∃ t, exec i s = .next t := by
  cases i with
  | spread x => exact ⟨_, rfl⟩
  | rehash x => exact ⟨_, rfl⟩
  | hash64 seed bytes => exact ⟨_, rfl⟩
  | hashstr absent bytes => exact ⟨_, rfl⟩
  | hashid x => exact ⟨_, rfl⟩
  | ftest x => exact ⟨_, if_pos (h.probesInside x)⟩
  | fput x => exact ⟨_, if_pos (h.probesInside x)⟩
  | ensure ms =>
    by_cases hms : ms.toInt < 0
    · exact ⟨_, if_pos hms⟩
    · exact ⟨_, if_neg hms⟩
  | incr key =>
    cases hi : s.init with
    | false => exact ⟨_, if_pos (by simp [hi])⟩
    | true => exact ⟨_, h.increment_eq hi Config.params key⟩
  | freq key => exact ⟨_, h.frequency_eq Config.params key⟩
  | isninit => exact ⟨_, rfl⟩
  | rdsr r =>
    cases hr : s.statusRegister r.toNat with
    | some v => exact ⟨s.answer v, by simp [exec, execRdsr, hr]⟩
    | none => exact ⟨s.raiseError .range, by simp [exec, execRdsr, hr]⟩
  | rdtbl idx =>
    by_cases hx : (!s.init || decide (s.tableLen ≤ idx.toNat)) = true
    · exact ⟨_, if_pos hx⟩
    · exact ⟨_, if_neg hx⟩
  | rdflt q =>
    by_cases hx : (!s.fltInit || decide (s.fltM ≤ 64 * q.toNat)) = true
    · exact ⟨_, if_pos hx⟩
    · exact ⟨_, if_neg hx⟩

theorem State.Inv.safe {s : State} (h : s.Inv) : Safe s := by
  rcases step_cases s with hs | ⟨i, rest, hs⟩ | ⟨rest, hs⟩ | ⟨rest, hs⟩
  · exact ⟨_, hs⟩
  · obtain ⟨t, ht⟩ := (h.take rest).exec_next i
    exact ⟨t, hs.trans ht⟩
  · exact ⟨_, hs⟩
  · exact ⟨_, hs⟩

/-! ### The table's length and `init` under a command (R23, R39 item 5) -/

/-- A table is built only where there was none or where it was shorter than the capacity (R145). -/
theorem State.Inv.tableLen_le_ensureCapacity {s : State} (h : s.Inv) (ms : Nat) :
    s.tableLen ≤ (s.ensureCapacity ms).tableLen := by
  unfold State.ensureCapacity
  split
  · exact Nat.le_refl _
  next hc =>
    rw [State.buildTable_tableLen]
    cases hi : s.init with
    | false =>
      obtain ⟨hlen, -⟩ := h.uninitialised hi
      omega
    | true =>
      have hlt : s.tableLen < min ms capMax := by simpa [State.covers, hi] using hc
      exact hlt.le.trans (le_tableLenFor _)

theorem Effect.tableLen_le {s u : State} {i : Instr} (he : Effect s i u) (h : s.Inv) : s.tableLen ≤ u.tableLen := by
  cases he with
  | unchanged => exact Nat.le_refl _
  | put x => simp
  | ensured ms _ => exact h.tableLen_le_ensureCapacity ms.toNat
  | doorkept key _ => simp
  | counted key _ => simp

/-- Afterwards the engine is initialised: it was, where the table covers the capacity, or the build does it (R144). -/
theorem State.ensureCapacity_init (s : State) (ms : Nat) : (s.ensureCapacity ms).init = true := by
  unfold State.ensureCapacity
  split
  next hc =>
    simp only [State.covers, Bool.and_eq_true] at hc
    exact hc.1
  · rfl

/-- A command leaves `init` as it is, or it is an `ENSURE` of a non-negative operand and sets it (R23). -/
theorem Effect.init_cases {s u : State} {i : Instr} (he : Effect s i u) :
    u.init = s.init ∨ (u.init = true ∧ ∃ ms, i = .ensure ms ∧ 0 ≤ ms.toInt) := by
  cases he with
  | unchanged => exact .inl rfl
  | put x => exact .inl (State.putBits_init s x)
  | ensured ms hms => exact .inr ⟨State.ensureCapacity_init s ms.toNat, ms, rfl, hms⟩
  | doorkept key _ => exact .inl (State.putBits_init s _)
  | counted key _ => exact .inl (by simp)

theorem exec_init_cases {i : Instr} {s t : State} (e : exec i s = .next t) :
    t.init = s.init ∨ (t.init = true ∧ ∃ ms, i = .ensure ms ∧ 0 ≤ ms.toInt) := by
  obtain ⟨u, st, v, he, rfl⟩ := exec_effect e
  exact he.init_cases

theorem execEnsure_of_nonneg {ms : Word} (s : State) (hms : 0 ≤ ms.toInt) :
    execEnsure ms s = .next ((s.ensureCapacity ms.toNat).respond .ok 0) :=
  if_neg (by omega)

/-! ### The numbers behind the status registers (R32, R36 to R38) -/

theorem State.Inv.tableLen_pow {s : State} (h : s.Inv) :
    s.tableLen = 0 ∨ ∃ e, 3 ≤ e ∧ e ≤ 30 ∧ s.tableLen = 2 ^ e := by
  cases hi : s.init with
  | false => exact .inl (h.uninitialised hi).1
  | true =>
    obtain ⟨j, hj⟩ := h.tableLength hi
    refine .inr ⟨j + 3, by omega, by omega, ?_⟩
    rw [hj, Nat.pow_add, Nat.mul_comm]

theorem State.Inv.tableLen_le {s : State} (h : s.Inv) : s.tableLen ≤ 2 ^ 30 := by
  rcases h.tableLen_pow with h0 | ⟨e, -, he, hlen⟩
  · omega
  · rw [hlen]
    exact Nat.pow_le_pow_right (by decide) he

theorem filterLength_mono {m n : Nat} (h : m ≤ n) : filterLength m ≤ filterLength n :=
  Nat.succ_le_succ (Nat.div_le_div_right (Nat.mul_le_mul_right _ (max_le_max_right 1 h)))

/-- The longest bit array is that of the greatest capacity, `2^30` (R36). -/
theorem State.Inv.fltM_le {s : State} (h : s.Inv) : s.fltM ≤ 8742796061 := by
  cases hf : s.fltInit with
  | false =>
    obtain ⟨-, -, -, -, -, -, -, -, hm, -⟩ := h.uninitialised (h.filterInit.symm.trans hf)
    omega
  | true =>
    have hmax : filterLength (2 ^ 30) = 8742796061 := by decide
    rw [(h.geometry hf).1, ← hmax]
    exact filterLength_mono (h.filterCapacity.trans h.tableLen_le)

theorem State.Inv.fltK_le {s : State} (h : s.Inv) : s.fltK ≤ 6 := by
  cases hf : s.fltInit with
  | false =>
    obtain ⟨-, -, -, -, -, -, -, -, -, hk, -⟩ := h.uninitialised (h.filterInit.symm.trans hf)
    omega
  | true => exact (h.geometry hf).2.le

/-! ### Where the model's faults are raised (log entry 11) -/

/-- A probe lies outside its storage exactly in a built filter of no bits that has probes. -/
theorem State.probesInside_eq_false (s : State) (h : Word) :
    s.probesInside h = false ↔ s.fltInit = true ∧ s.fltM = 0 ∧ 0 < s.fltK := by
  constructor
  · intro hp
    have hf : s.fltInit = true := by
      by_contra hf
      simp [State.probesInside, hf] at hp
    have hm : s.fltM = 0 := by
      by_contra hm
      rw [State.probesInside_of_pos s h fun _ => Nat.pos_of_ne_zero hm] at hp
      cases hp
    refine ⟨hf, hm, Nat.pos_of_ne_zero fun hk => ?_⟩
    simp [State.probesInside, State.probes, positions, hk] at hp
  · rintro ⟨hf, hm, hk⟩
    have hmem : (s.probes h).all (fun j => decide (j < s.fltM)) = false := by
      rw [List.all_eq_false]
      exact ⟨_, (mem_positions _ _ h _).mpr ⟨0, hk, rfl⟩, by simp [hm]⟩
    simp [State.probesInside, hf, hmem]

theorem State.slotsInside_eq_false (s : State) (sl : List Slot) :
    s.slotsInside sl = false ↔ ∃ x ∈ sl, s.tableLen ≤ x.word := by
  simp [State.slotsInside]

theorem execFtest_eq_fault_iff (h : Word) (s : State) (r : Fault) :
    execFtest h s = .fault r ↔ r = .filterBounds ∧ s.probesInside h = false := by
  unfold execFtest
  cases s.probesInside h <;> cases r <;> simp

theorem execFput_eq_fault_iff (h : Word) (s : State) (r : Fault) :
    execFput h s = .fault r ↔ r = .filterBounds ∧ s.probesInside h = false := by
  unfold execFput
  cases s.probesInside h <;> cases r <;> simp

/-- The two ways `FREQ` stops: its probes lie outside the filter, or the filter contains the key and a counter lies outside
the table. -/
theorem frequency_eq_fault_iff (p : Params) (key : Key) (s : State) (r : Fault) :
    frequency p key s = .fault r ↔ s.init = true ∧
      (r = .filterBounds ∧ s.probesInside (keyHash64 p key) = false ∨
        r = .tableBounds ∧ s.probesInside (keyHash64 p key) = true ∧ s.mightContain (keyHash64 p key) = true ∧
          s.slotsInside (slots p key.ident s.blockMask) = false) := by
  unfold frequency
  cases s.init with
  | false => simp
  | true =>
    cases s.probesInside (keyHash64 p key) with
    | false => cases r <;> simp
    | true =>
      cases s.mightContain (keyHash64 p key) with
      | false => simp
      | true =>
        cases s.slotsInside (slots p key.ident s.blockMask) with
        | false => cases r <;> simp
        | true => simp

/-- The two ways `INCR` stops: its probes lie outside the filter, or the key is not new and a counter lies outside the
table. -/
theorem increment_eq_fault_iff (p : Params) (key : Key) (s : State) (r : Fault) :
    increment p key s = .fault r ↔ s.init = true ∧
      (r = .filterBounds ∧ s.probesInside (keyHash64 p key) = false ∨
        r = .tableBounds ∧ s.probesInside (keyHash64 p key) = true ∧ s.newlyObserved (keyHash64 p key) = false ∧
          s.slotsInside (slots p key.ident s.blockMask) = false) := by
  unfold increment
  cases s.init with
  | false => simp
  | true =>
    cases s.probesInside (keyHash64 p key) with
    | false => cases r <;> simp
    | true =>
      cases s.newlyObserved (keyHash64 p key) with
      | true => simp
      | false =>
        cases s.slotsInside (slots p key.ident s.blockMask) with
        | false => cases r <;> simp
        | true => simp

/-! ### The statements -/

/-- Settles O55: a step keeps the invariants because every effect of a command, the response, the rejection and the reset
do. -/
theorem everyStepKeepsTheInvariants : Obligations.EveryStepKeepsTheInvariants := fun _ _ h e => step_inv h e

/-- Settles O56: the invariants put every access inside its storage. -/
theorem noStepStopsFromAGoodState : Obligations.NoStepStopsFromAGoodState := fun _ h => h.safe

/-- Settles O20: only a build changes the length, and it builds a table of at least the capacity that the old one did not
cover. -/
theorem noCommandShrinksTheTable : Obligations.NoCommandShrinksTheTable := by
  intro i s t h e
  obtain ⟨u, st, v, he, rfl⟩ := exec_effect e
  exact he.tableLen_le h

/-- Settles O21, from what a command can do to `init`. -/
theorem initIsSetByEnsureAndClearedByReset : Obligations.InitIsSetByEnsureAndClearedByReset := by
  refine ⟨fun i s t e hs => ?_, fun i s t e hs ht => ?_, fun ms s hms => ?_, fun s rest hin => ?_⟩
  · rcases exec_init_cases e with heq | ⟨ht, -⟩
    · exact heq.trans hs
    · exact ht
  · rcases exec_init_cases e with heq | ⟨-, hens⟩
    · rw [heq, hs] at ht
      cases ht
    · exact hens
  · exact ⟨_, execEnsure_of_nonneg s hms, State.ensureCapacity_init s ms.toNat⟩
  · exact ⟨_, step_reset hin, rfl⟩

/-- Settles O35: the bounds on the four numbers are far below `2^64`. -/
theorem registersHoldTheirNumbers : Obligations.RegistersHoldTheirNumbers := by
  intro s h
  have hlen := h.tableLen_le
  have hcap := h.filterCapacity
  have hm := h.fltM_le
  have hk := h.fltK_le
  refine ⟨?_, ?_, ?_, ?_, h.tableLen_pow, hm⟩ <;> exact Nat.mod_eq_of_lt (by omega)

/-- Settles O42: the fault of each command, then when a probe and when a counter lies outside its storage. -/
theorem stopsExactlyOutsideStorage : Obligations.StopsExactlyOutsideStorage := by
  intro h key s
  have hpos : 0 < s.fltM → s.probesInside (keyHash64 Config.params key) = true := fun hm =>
    State.probesInside_of_pos s _ fun _ => hm
  refine ⟨(execFtest_eq_fault_iff h s _).trans ?_, (execFput_eq_fault_iff h s _).trans ?_,
    (frequency_eq_fault_iff _ key s _).trans ?_, (increment_eq_fault_iff _ key s _).trans ?_,
    fun hm => (frequency_eq_fault_iff _ key s _).trans ?_, fun hm => (increment_eq_fault_iff _ key s _).trans ?_⟩
  · simp [State.probesInside_eq_false]
  · simp [State.probesInside_eq_false]
  · simp [State.probesInside_eq_false]
  · simp [State.probesInside_eq_false]
  · simp [hpos hm, State.slotsInside_eq_false]
  · simp [hpos hm, State.slotsInside_eq_false]

/-- Settles O49: the fields by computation; no index is below the length 0; every register's number is 0. -/
theorem resetIsTheCreatedState : Obligations.ResetIsTheCreatedState := by
  refine ⟨rfl, rfl, rfl, rfl, rfl, rfl, rfl, rfl, rfl, rfl, rfl, rfl, fun _ => rfl, fun _ => rfl, fun r hr => ?_⟩
  have hreg : ∀ n < 8, State.reset.statusRegister n = some 0 := by decide
  simp [exec, execRdsr, hreg _ hr]

/-- Settles O54. -/
theorem resetMeetsTheInvariants : Obligations.ResetMeetsTheInvariants := State.reset_inv

end Sys2Proof.Machine

/-! # Runs, read-only commands and data words: the statements about 20_memory.md

A step over a packet is the execution of what it decodes to, or its rejection; either answers once. The run is an
induction on the events pending. -/

namespace Sys2Proof.Machine

/-! ### Packets (R58, R60, R80) -/

theorem decodePacket_eq_some_iff {pk : Packet} {i : Instr} :
    decodePacket pk = some i ↔ decode Config.params pk = .ok i := by
  unfold decodePacket
  split <;> simp_all

theorem Input.exists_packet_of_isPacket {e : Input} (he : e.isPacket = true) : ∃ pk, e = .packet pk := by
  cases e with
  | packet pk => exact ⟨pk, rfl⟩
  | reset => cases he
  | resetDuring pk => cases he

/-- A step over a packet that goes on takes it off the port and returns one response, whether the packet is executed or
rejected (R58, R182). -/
theorem step_packet_answers {s t : State} {pk : Packet} {rest : List Input} (hin : s.inputs = .packet pk :: rest)
    (e : step s = .next t) : t.inputs = rest ∧ ∃ r, t.responses = s.responses ++ [r] := by
  cases hd : decodePacket pk with
  | some i =>
    rw [step_decoded hin hd] at e
    obtain ⟨u, st, v, rfl, hres, hinp, -⟩ := exec_responds e
    exact ⟨by simp [hinp], ⟨st.word, v⟩, by simp [hres]⟩
  | none =>
    rw [step_rejected hin hd] at e
    cases e
    exact ⟨rfl, _, rfl⟩

/-! ### Runs -/

theorem run_succ_of_step (M : Host.Core) {s t : M.State} (e : M.step s = .next t) (k : Nat) :
    M.run (k + 1) s = M.run k t := by
  rw [Host.Core.run, e]

/-- The run over the packets pending, by induction on them: progress gives each step, the step answers the first packet
and keeps the invariants, and the rest is a run over the packets that remain. -/
theorem State.Inv.run_packets (pending : List Input) (hp : ∀ e ∈ pending, e.isPacket = true) {s : State} (h : s.Inv)
    (hin : s.inputs = pending) :
    ∃ t : State, Host.Core.run Sys2Proof.core pending.length s = .next t ∧ t.inputs = [] ∧ t.Inv ∧
      ∃ rs : List Response, rs.length = pending.length ∧ t.responses = s.responses ++ rs := by
  induction pending generalizing s with
  | nil => exact ⟨s, rfl, hin, h, [], rfl, by simp⟩
  | cons e rest ih =>
    obtain ⟨hpacket, hrest⟩ := List.forall_mem_cons.mp hp
    obtain ⟨pk, rfl⟩ := Input.exists_packet_of_isPacket hpacket
    obtain ⟨u, hu⟩ := h.safe
    obtain ⟨huin, r, hur⟩ := step_packet_answers hin hu
    obtain ⟨t, hrun, htin, htinv, rs, hlen, htr⟩ := ih hrest (step_inv h hu) huin
    exact ⟨t, (run_succ_of_step Sys2Proof.core hu _).trans hrun, htin, htinv, r :: rs, by simp [hlen],
      by simp [htr, hur]⟩

/-! ### Read-only commands (R57, R165) -/

theorem Effect.eq_of_readOnly {s u : State} {i : Instr} (he : Effect s i u) (hr : i.readOnly = true) : u = s := by
  cases he with
  | unchanged => rfl
  | put x => cases hr
  | ensured ms _ => cases hr
  | doorkept key _ => cases hr
  | counted key _ => cases hr

/-! ### The data words of a byte sequence (R55, R77) -/

/-- The full data words are the chunks of the sequence. -/
theorem packBytes_take_full (bytes : List Byte) :
    (packBytes bytes).take (bytes.length / 8) = (List.range (bytes.length / 8)).map fun q => le8 bytes (8 * q) := by
  have hle : bytes.length / 8 ≤ nd bytes.length := by
    unfold nd
    omega
  rw [packBytes, ← List.map_take, List.take_range, Nat.min_eq_left hle]

/-- After the full data words comes the zero-padded tail, exactly where the length is no multiple of 8. -/
theorem packBytes_drop_full (bytes : List Byte) :
    (packBytes bytes).drop (bytes.length / 8) =
      if bytes.length % 8 = 0 then [] else [le8 bytes (8 * (bytes.length / 8))] := by
  split
  · have hnd : nd bytes.length = bytes.length / 8 := by
      unfold nd
      omega
    simp [hnd]
  · have hnd : nd bytes.length = bytes.length / 8 + 1 := by
      unfold nd
      omega
    simp [packBytes, hnd, List.range_succ]

/-! ### The statements -/

/-- Settles O57: the run over the events pending, all of them packets. -/
theorem everyPacketOfARunIsAnswered : Obligations.EveryPacketOfARunIsAnswered := fun s h hp =>
  h.run_packets s.inputs hp rfl

/-- Settles O8: the fold over the chunks is the fold over the full data words, and the tail step takes the one word
left. -/
theorem referenceHashConsumesTheDataWords : Obligations.ReferenceHashConsumesTheDataWords := by
  intro hm hr bytes seed
  dsimp only
  rw [packBytes_take_full, packBytes_drop_full, List.foldl_map, hash64Reference]
  by_cases hlen : bytes.length % 8 = 0 <;> simp [hlen]

/-- Settles O38: a read-only command has no effect but its response. -/
theorem readOnlyCommandsChangeNothing : Obligations.ReadOnlyCommandsChangeNothing := by
  intro i s t hr e
  obtain ⟨u, st, v, he, rfl⟩ := exec_effect e
  obtain rfl := he.eq_of_readOnly hr
  exact ⟨State.sameEngine_respond u st v, State.respond_inputs u st v⟩

/-- Settles O50: the engine's decoder accepts what the decoder accepts for its parameters. -/
theorem stepRunsTheDecodedCommand : Obligations.StepRunsTheDecodedCommand := fun _ _ _ _ hin hd =>
  step_decoded hin (decodePacket_eq_some_iff.mpr hd)

end Sys2Proof.Machine

/-! # Decoding and encoding: the statements about 30_encoding.md

`Accepted` names the six checks of R80, and `decode_eq_ok_iff` says that the decoder is these checks and `assemble`.
One lemma per format says that the packets it accepts are those the encoder writes; the round trips `decode_encode` and
`Accepted.encode_assemble` are case splits over the commands on top of these. -/

namespace Sys2Proof

/-! ### The opcode map (R79, R81) -/

theorem Opcode.ofByte_eq_some_iff {b : Byte} {op : Opcode} : Opcode.ofByte b = some op ↔ b = op.code :=
  ⟨fun h => (Opcode.code_of_ofByte b op h).symm, fun h => h ▸ Opcode.ofByte_code op⟩

theorem Opcode.code_injective {a b : Opcode} (h : a.code = b.code) : a = b :=
  Option.some.inj ((Opcode.ofByte_code a).symm.trans (h ▸ Opcode.ofByte_code b))

theorem Opcode.mem_all (op : Opcode) : op ∈ Opcode.all := by
  cases op <;> decide

/-- The assigned byte values are the codes in the map. -/
theorem Opcode.filter_assigned_perm :
    ((List.range 256).filter fun n => (Opcode.ofByte (BitVec.ofNat 8 n)).isSome).Perm
      (Opcode.all.map fun op => op.code.toNat) := by
  rw [List.perm_ext_iff_of_nodup (List.nodup_range.filter _) (by decide)]
  intro n
  simp only [List.mem_filter, List.mem_range, List.mem_map, Option.isSome_iff_exists, Opcode.ofByte_eq_some_iff]
  constructor
  · rintro ⟨hn, op, hop⟩
    exact ⟨op, op.mem_all, by rw [← hop, BitVec.toNat_ofNat, Nat.mod_eq_of_lt hn]⟩
  · rintro ⟨op, -, rfl⟩
    exact ⟨op.code.isLt, op, by simp⟩

/-- The codes of the fourteen commands leave 242 byte values unassigned. -/
theorem Opcode.countP_unassigned :
    ((List.range 256).countP fun n => (Opcode.ofByte (BitVec.ofNat 8 n)).isNone) = 242 := by
  have hsplit := List.length_eq_countP_add_countP (l := List.range 256)
    fun n => (Opcode.ofByte (BitVec.ofNat 8 n)).isSome
  have hassigned : (List.range 256).countP (fun n => (Opcode.ofByte (BitVec.ofNat 8 n)).isSome) = 14 := by
    rw [List.countP_eq_length_filter, Opcode.filter_assigned_perm.length_eq, List.length_map]
    rfl
  simp only [List.length_range, hassigned, Bool.not_eq_true, Option.isSome_eq_false_iff, Bool.decide_eq_true] at hsplit
  omega

/-! ### The header's constraints (R72, R86) -/

/-- Check 3 by fields: not `A` and `P` at once, and each of `A`, `P` and `IMM` only in the formats that have it. -/
theorem headerAllowed_iff {f : Format} {h : Word} :
    headerAllowed f h = true ↔ ¬ (headerA h = true ∧ headerP h = true) ∧ (headerA h = true → f = .k ∨ f = .b) ∧
      (headerP h = true → f = .k) ∧ (headerImm h = 0 ∨ f = .i ∨ f = .k) := by
  cases f <;> grind [headerAllowed]

/-- The mask of every format covers the opcode byte. -/
theorem headerOpc_and_rowMask (h : Word) (f : Format) : headerOpc (h &&& rowMask f) = headerOpc h := by
  have hmask : (rowMask f).extractLsb' 0 8 = BitVec.allOnes 8 := by cases f <;> decide
  rw [headerOpc, BitVec.extractLsb'_and, hmask, BitVec.and_allOnes, headerOpc]

@[simp] theorem headerOpc_rowMatch (op : Opcode) : headerOpc (rowMatch op) = op.code := by
  cases op <;> decide

theorem headerOpc_of_row {h : Word} {op : Opcode} (hrow : h &&& rowMask op.format = rowMatch op) :
    headerOpc h = op.code := by
  rw [← headerOpc_and_rowMask h op.format, hrow, headerOpc_rowMatch]

/-! ### The checks of R80, as one predicate -/

/-- The packet passes the checks of R80 as a packet of `op`. -/
structure Accepted (p : Params) (op : Opcode) (pk : Packet) : Prop where
  /-- Check 1: the packet's opcode is assigned to `op`. -/
  opc : headerOpc pk.header = op.code
  /-- Check 2. -/
  mbz : headerMbz pk.header = 0
  /-- Check 3. -/
  allowed : headerAllowed op.format pk.header = true
  /-- Check 4. -/
  lenWord : lenWordOk p op.format pk = true
  /-- Check 5. -/
  count : pk.operands.length = operandCount op.format pk
  /-- Check 6. -/
  padding : paddingOk op.format pk = true

/-- The decoder answers the command assembled from a packet that passes the checks, and no other. -/
theorem decode_eq_ok_iff {p : Params} {pk : Packet} {i : Instr} :
    decode p pk = .ok i ↔ ∃ op, Accepted p op pk ∧ assemble op pk = i := by
  constructor
  · intro h
    unfold decode at h
    split at h
    · cases h
    next op hop =>
      rw [Opcode.ofByte_eq_some_iff] at hop
      split_ifs at h with hmbz hallowed hlen hcount hpad
      simp only [bne_iff_ne, ne_eq, not_not, Bool.not_eq_true', Bool.not_eq_false] at hmbz hallowed hlen hcount hpad
      exact ⟨op, ⟨hop, hmbz, hallowed, hlen, hcount, hpad⟩, Except.ok.inj h⟩
  · rintro ⟨op, hacc, rfl⟩
    simp [decode, hacc.opc, hacc.mbz, hacc.allowed, hacc.lenWord, hacc.count, hacc.padding]

theorem Accepted.decode_eq {p : Params} {op : Opcode} {pk : Packet} {i : Instr} (h : Accepted p op pk)
    (hi : assemble op pk = i) : decode p pk = .ok i :=
  decode_eq_ok_iff.mpr ⟨op, h, hi⟩

theorem decode_error_of_not_accepted {p : Params} {op : Opcode} {pk : Packet} (hop : headerOpc pk.header = op.code)
    (h : ¬ Accepted p op pk) : ∃ e, decode p pk = .error e := by
  cases hd : decode p pk with
  | error e => exact ⟨e, rfl⟩
  | ok i =>
    obtain ⟨op', hacc, -⟩ := decode_eq_ok_iff.mp hd
    obtain rfl := Opcode.code_injective (hacc.opc.symm.trans hop)
    exact absurd hacc h

/-! ### Byte-carrying forms (R72, R77)

The operand words of a byte-carrying form are `lenIndex` words (the seed of format S), the `LEN` word and the data
words. -/

theorem lengthOk_iff {p : Params} {n : Nat} : lengthOk p n = true ↔ lenAdmitted p n = true ∧ n < 2 ^ 64 := by
  unfold lengthOk lenAdmitted
  cases n <;> simp

theorem operandCount_of_carriesBytes {f : Format} {pk : Packet} (hc : carriesBytes f pk.header = true) :
    operandCount f pk = lenIndex f + 1 + nd (lenOf f pk.operands) := by
  cases f <;> simp_all [operandCount, lenIndex, carriesBytes]

@[simp] theorem encodeBytes_length (bytes : List Byte) : (encodeBytes bytes).length = nd bytes.length + 1 := by
  simp [encodeBytes]

/-- Formats K and B carry bytes where neither flag is set. -/
theorem carriesBytes_of_k_or_b {f : Format} (hf : f = .k ∨ f = .b) (h : Word) :
    carriesBytes f h = (!headerA h && !headerP h) := by
  rcases hf with rfl | rfl <;> rfl

theorem operandCount_of_not_carriesBytes {f : Format} (hw : f ≠ .w) {pk : Packet}
    (hc : carriesBytes f pk.header = false) : operandCount f pk = 0 := by
  cases f <;> simp_all [operandCount, carriesBytes]

theorem lenIndex_of_ne_s {f : Format} (hf : f ≠ .s) : lenIndex f = 0 := by
  cases f <;> simp_all [lenIndex]

theorem lenOf_encodeBytes {f : Format} {pre : List Word} (hpre : pre.length = lenIndex f) {bytes : List Byte}
    (hlt : bytes.length < 2 ^ 64) : lenOf f (pre ++ encodeBytes bytes) = bytes.length := by
  simp [lenOf, ← hpre, encodeBytes, List.getD_eq_getElem?_getD, Nat.mod_eq_of_lt hlt, -Nat.reducePow]

theorem dataWords_encodeBytes {f : Format} {pre : List Word} (hpre : pre.length = lenIndex f) (bytes : List Byte) :
    dataWords f (pre ++ encodeBytes bytes) = packBytes bytes := by
  rw [dataWords, ← hpre, List.drop_length_add_append, encodeBytes, List.drop_one, List.tail_cons]

/-- The bytes that a packet was built from are the bytes it carries. -/
theorem bytesOf_encodeBytes {f : Format} {h : Word} {pre : List Word} {bytes : List Byte}
    (hc : carriesBytes f h = true) (hpre : pre.length = lenIndex f) (hlt : bytes.length < 2 ^ 64) :
    bytesOf f ⟨h, pre ++ encodeBytes bytes⟩ = bytes := by
  rw [bytesOf, if_pos hc, lenOf_encodeBytes hpre hlt, dataWords_encodeBytes hpre, unpackBytes_packBytes]

theorem bytesOf_of_not_carriesBytes {f : Format} {pk : Packet} (hc : carriesBytes f pk.header = false) :
    bytesOf f pk = [] := by
  simp [bytesOf, hc]

/-- A header in a form without bytes, with its fixed number of operand words, is accepted. -/
theorem accepted_of_not_carriesBytes (p : Params) {op : Opcode} {a pf : Bool} {imm : U32} {ops : List Word}
    (hall : headerAllowed op.format (mkHeader op a pf imm) = true)
    (hc : carriesBytes op.format (mkHeader op a pf imm) = false)
    (hcount : ops.length = operandCount op.format ⟨mkHeader op a pf imm, ops⟩) :
    Accepted p op ⟨mkHeader op a pf imm, ops⟩ where
  opc := headerOpc_mkHeader ..
  mbz := headerMbz_mkHeader ..
  allowed := hall
  lenWord := by simp [lenWordOk, hc]
  count := hcount
  padding := by simp [paddingOk, hc]

/-- A header in a byte-carrying form, with a sequence of admitted length, is accepted. -/
theorem accepted_of_carriesBytes {p : Params} {op : Opcode} {a pf : Bool} {imm : U32} {pre : List Word}
    {bytes : List Byte} (hall : headerAllowed op.format (mkHeader op a pf imm) = true)
    (hc : carriesBytes op.format (mkHeader op a pf imm) = true) (hpre : pre.length = lenIndex op.format)
    (hlen : lengthOk p bytes.length = true) : Accepted p op ⟨mkHeader op a pf imm, pre ++ encodeBytes bytes⟩ := by
  obtain ⟨hadm, hlt⟩ := lengthOk_iff.mp hlen
  have hlenOf := lenOf_encodeBytes hpre hlt
  have hcount := operandCount_of_carriesBytes (pk := ⟨mkHeader op a pf imm, pre ++ encodeBytes bytes⟩) hc
  exact
    { opc := headerOpc_mkHeader ..
      mbz := headerMbz_mkHeader ..
      allowed := hall
      lenWord := by simp [lenWordOk, hlenOf, hadm, hpre]
      count := by rw [hcount, hlenOf, List.length_append, hpre, encodeBytes_length, Nat.add_right_comm, Nat.add_assoc]
      padding := by simp [paddingOk, hlenOf, dataWords_encodeBytes hpre, dataByte_packBytes] }

namespace Accepted

variable {p : Params} {op : Opcode} {pk : Packet}

/-- An accepted header is its fields put together. -/
theorem header_eq (h : Accepted p op pk) :
    mkHeader op (headerA pk.header) (headerP pk.header) (headerImm pk.header) = pk.header :=
  mkHeader_fields op pk.header h.opc h.mbz

/-- An accepted byte-carrying packet has a `LEN` word that `KEYLEN_MAX` admits. -/
theorem lenWord_of_carriesBytes (h : Accepted p op pk) (hc : carriesBytes op.format pk.header = true) :
    lenIndex op.format < pk.operands.length ∧ lenAdmitted p (lenOf op.format pk.operands) = true := by
  simpa [lenWordOk, hc] using h.lenWord

theorem lengthOk_bytesOf (h : Accepted p op pk) (hc : carriesBytes op.format pk.header = true) :
    lengthOk p (bytesOf op.format pk).length = true := by
  rw [bytesOf, if_pos hc, unpackBytes_length, lengthOk_iff]
  exact ⟨(h.lenWord_of_carriesBytes hc).2, (pk.operands.getD _ 0).isLt⟩

theorem packBytes_bytesOf (h : Accepted p op pk) (hc : carriesBytes op.format pk.header = true) :
    packBytes (bytesOf op.format pk) = dataWords op.format pk.operands := by
  have hcount := h.count
  rw [operandCount_of_carriesBytes hc] at hcount
  have hpad := h.padding
  simp only [paddingOk, hc, Bool.not_true, Bool.false_or, List.all_eq_true, List.mem_range, beq_iff_eq] at hpad
  rw [bytesOf, if_pos hc]
  exact packBytes_unpackBytes _ _ (by simp [dataWords, hcount]) hpad

/-- The operand words of an accepted byte-carrying packet are rebuilt from the bytes it carries. -/
theorem operands_of_carriesBytes (h : Accepted p op pk) (hc : carriesBytes op.format pk.header = true) :
    pk.operands.take (lenIndex op.format) ++ encodeBytes (bytesOf op.format pk) = pk.operands := by
  have hlt := (h.lenWord_of_carriesBytes hc).1
  have hlen : BitVec.ofNat 64 (bytesOf op.format pk).length = pk.operands[lenIndex op.format] := by
    simp [bytesOf, hc, lenOf, List.getD_eq_getElem?_getD, hlt]
  rw [encodeBytes, hlen, h.packBytes_bytesOf hc, dataWords, ← List.drop_eq_getElem_cons hlt, List.take_append_drop]

/-- An accepted packet is put together again from its fields and operand words. -/
theorem eq_mk (h : Accepted p op pk) {a pf : Bool} {imm : U32} {ops : List Word} (ha : headerA pk.header = a)
    (hp : headerP pk.header = pf) (himm : headerImm pk.header = imm) (hops : ops = pk.operands) :
    ⟨mkHeader op a pf imm, ops⟩ = pk := by
  subst ha hp himm hops
  rw [h.header_eq]

/-! ### A packet accepted in each format is the packet of its operands (R73 to R76) -/

/-- Formats Z, W and S have neither flag nor immediate. -/
theorem flags_eq_zero (h : Accepted p op pk) (hf : op.format = .z ∨ op.format = .w ∨ op.format = .s) :
    headerA pk.header = false ∧ headerP pk.header = false ∧ headerImm pk.header = 0 := by
  rcases hf with hf | hf | hf <;> simpa [hf, headerAllowed, and_assoc] using h.allowed

theorem eq_of_format_z (h : Accepted p op pk) (hf : op.format = .z) : ⟨mkHeader op false false 0, []⟩ = pk := by
  obtain ⟨hA, hP, himm⟩ := h.flags_eq_zero (.inl hf)
  have hcount : pk.operands = [] := by simpa [hf, operandCount] using h.count
  exact h.eq_mk hA hP himm hcount.symm

theorem eq_of_format_i (h : Accepted p op pk) (hf : op.format = .i) :
    ⟨mkHeader op false false (headerImm pk.header), []⟩ = pk := by
  obtain ⟨hA, hP⟩ : headerA pk.header = false ∧ headerP pk.header = false := by
    simpa [hf, headerAllowed] using h.allowed
  have hcount : pk.operands = [] := by simpa [hf, operandCount] using h.count
  exact h.eq_mk hA hP rfl hcount.symm

theorem eq_of_format_w (h : Accepted p op pk) (hf : op.format = .w) :
    ⟨mkHeader op false false 0, [pk.operands.getD 0 0]⟩ = pk := by
  obtain ⟨hA, hP, himm⟩ := h.flags_eq_zero (.inr (.inl hf))
  obtain ⟨w, hw⟩ : ∃ w, pk.operands = [w] := List.length_eq_one_iff.mp (by simpa [hf, operandCount] using h.count)
  exact h.eq_mk hA hP himm (by simp [hw])

theorem eq_of_format_s (h : Accepted p op pk) (hf : op.format = .s) :
    lengthOk p (bytesOf .s pk).length = true ∧
      ⟨mkHeader op false false 0, pk.operands.getD 0 0 :: encodeBytes (bytesOf .s pk)⟩ = pk := by
  obtain ⟨hA, hP, himm⟩ := h.flags_eq_zero (.inr (.inr hf))
  have hc : carriesBytes op.format pk.header = true := by rw [hf]; rfl
  have hops := h.operands_of_carriesBytes hc
  obtain ⟨seed, ops, hcons⟩ := List.exists_cons_of_length_pos (Nat.zero_lt_of_lt (h.lenWord_of_carriesBytes hc).1)
  refine ⟨hf ▸ h.lengthOk_bytesOf hc, h.eq_mk hA hP himm ?_⟩
  simpa [hf, lenIndex, hcons] using hops

/-- With `P = 0`, the operand words are none for an absent value and a byte sequence of admitted length otherwise. -/
theorem bytesForm (h : Accepted p op pk) (hf : op.format = .k ∨ op.format = .b) (hP : headerP pk.header = false) :
    bytesFormOk p (headerA pk.header) (bytesOf op.format pk) = true ∧
      (if headerA pk.header then [] else encodeBytes (bytesOf op.format pk)) = pk.operands := by
  have hc := carriesBytes_of_k_or_b hf pk.header
  have hw : op.format ≠ .w ∧ op.format ≠ .s := by rcases hf with hf | hf <;> simp [hf]
  cases hA : headerA pk.header with
  | true =>
    rw [hA, Bool.not_true, Bool.false_and] at hc
    have hcount := h.count
    rw [operandCount_of_not_carriesBytes hw.1 hc] at hcount
    simp [bytesFormOk, bytesOf_of_not_carriesBytes hc, List.eq_nil_of_length_eq_zero hcount]
  | false =>
    rw [hA, hP, Bool.not_false, Bool.true_and] at hc
    have hops := h.operands_of_carriesBytes hc
    rw [lenIndex_of_ne_s hw.2, List.take_zero, List.nil_append] at hops
    exact ⟨h.lengthOk_bytesOf hc, hops⟩

theorem eq_of_format_b (h : Accepted p op pk) (hf : op.format = .b) :
    bytesFormOk p (headerA pk.header) (bytesOf .b pk) = true ∧
      ⟨mkHeader op (headerA pk.header) false 0,
        if headerA pk.header then [] else encodeBytes (bytesOf .b pk)⟩ = pk := by
  obtain ⟨hP, himm⟩ : headerP pk.header = false ∧ headerImm pk.header = 0 := by
    simpa [hf, headerAllowed] using h.allowed
  obtain ⟨hok, hops⟩ := h.bytesForm (.inr hf) hP
  rw [hf] at hok hops
  exact ⟨hok, h.eq_mk rfl hP himm hops⟩

theorem eq_of_format_k (h : Accepted p op pk) (hf : op.format = .k) :
    (keyOf pk).ok p = true ∧ encodeKey op (keyOf pk) = pk := by
  cases hP : headerP pk.header with
  | false =>
    obtain ⟨hok, hops⟩ := h.bytesForm (.inl hf) hP
    rw [hf] at hok hops
    simpa [keyOf, Key.ok, encodeKey, hP, hok] using h.eq_mk rfl hP rfl hops
  | true =>
    have hA : headerA pk.header = false := by simpa [hf, headerAllowed, hP] using h.allowed
    have hc : carriesBytes .k pk.header = false := by simp [carriesBytes, hP]
    have hcount : pk.operands = [] := by simpa [hf, operandCount, hc] using h.count
    simpa [keyOf, Key.ok, encodeKey, hA, hP, bytesOf_of_not_carriesBytes hc] using h.eq_mk hA hP rfl hcount.symm

end Accepted

/-! ### The packet of a command in each format is accepted (R73 to R76) -/

section
variable (p : Params) {op : Opcode}

theorem accepted_format_z (hf : op.format = .z) : Accepted p op ⟨mkHeader op false false 0, []⟩ :=
  accepted_of_not_carriesBytes p (by simp [hf, headerAllowed]) (by rw [hf]; rfl) (by rw [hf]; rfl)

theorem accepted_format_i (hf : op.format = .i) (imm : U32) : Accepted p op ⟨mkHeader op false false imm, []⟩ :=
  accepted_of_not_carriesBytes p (by simp [hf, headerAllowed]) (by rw [hf]; rfl) (by rw [hf]; rfl)

theorem accepted_format_w (hf : op.format = .w) (w : Word) : Accepted p op ⟨mkHeader op false false 0, [w]⟩ :=
  accepted_of_not_carriesBytes p (by simp [hf, headerAllowed]) (by rw [hf]; rfl) (by rw [hf]; rfl)

end

section
variable {p : Params} {op : Opcode} {bytes : List Byte}

theorem accepted_format_s (hf : op.format = .s) (seed : Word) (hlen : lengthOk p bytes.length = true) :
    Accepted p op ⟨mkHeader op false false 0, seed :: encodeBytes bytes⟩ ∧
      bytesOf .s ⟨mkHeader op false false 0, seed :: encodeBytes bytes⟩ = bytes :=
  ⟨accepted_of_carriesBytes (pre := [seed]) (by simp [hf, headerAllowed]) (by rw [hf]; rfl) (by rw [hf]; rfl) hlen,
    bytesOf_encodeBytes (pre := [seed]) rfl rfl (lengthOk_iff.mp hlen).2⟩

/-- With `P = 0`: nothing for an absent value, else a byte sequence of admitted length. -/
theorem accepted_bytesForm {f : Format} (hf : op.format = f) (hkb : f = .k ∨ f = .b) {absent : Bool} {imm : U32}
    (himm : imm = 0 ∨ f = .k) (hok : bytesFormOk p absent bytes = true) :
    Accepted p op ⟨mkHeader op absent false imm, if absent then [] else encodeBytes bytes⟩ ∧
      bytesOf f ⟨mkHeader op absent false imm, if absent then [] else encodeBytes bytes⟩ = bytes := by
  subst hf
  have hall : headerAllowed op.format (mkHeader op absent false imm) = true := by
    rw [headerAllowed_iff, headerA_mkHeader, headerP_mkHeader, headerImm_mkHeader]
    exact ⟨by simp, fun _ => hkb, nofun, himm.imp_right .inr⟩
  have hc := carriesBytes_of_k_or_b hkb (mkHeader op absent false imm)
  have hw : op.format ≠ .w ∧ op.format ≠ .s := by rcases hkb with hf | hf <;> simp [hf]
  rw [headerA_mkHeader, headerP_mkHeader, Bool.not_false, Bool.and_true] at hc
  cases absent with
  | true =>
    have hnil : bytes = [] := by simpa [bytesFormOk] using hok
    have hbytes : bytesOf op.format ⟨mkHeader op true false imm, []⟩ = [] := bytesOf_of_not_carriesBytes hc
    have hcount : operandCount op.format ⟨mkHeader op true false imm, []⟩ = 0 :=
      operandCount_of_not_carriesBytes hw.1 hc
    rw [if_pos rfl]
    exact ⟨accepted_of_not_carriesBytes p hall hc hcount.symm, hbytes.trans hnil.symm⟩
  | false =>
    have hlen : lengthOk p bytes.length = true := hok
    have hindex : ([] : List Word).length = lenIndex op.format := (lenIndex_of_ne_s hw.2).symm
    rw [if_neg Bool.false_ne_true, ← List.nil_append (encodeBytes bytes)]
    exact ⟨accepted_of_carriesBytes hall hc hindex hlen, bytesOf_encodeBytes hc hindex (lengthOk_iff.mp hlen).2⟩

theorem accepted_format_k (hf : op.format = .k) {key : Key} (hok : key.ok p = true) :
    Accepted p op (encodeKey op key) ∧ keyOf (encodeKey op key) = key := by
  obtain ⟨ident, path, absent, bytes⟩ := key
  cases path with
  | bytes =>
    obtain ⟨hacc, hbytes⟩ := accepted_bytesForm (imm := ident) hf (.inl rfl) (.inr rfl) hok
    exact ⟨hacc, by simp [encodeKey, keyOf, hbytes]⟩
  | ident =>
    obtain ⟨rfl, rfl⟩ : absent = false ∧ bytes = [] := by simpa [Key.ok] using hok
    have hc : carriesBytes .k (mkHeader op false true ident) = false := by simp [carriesBytes]
    have hnil : bytesOf .k ⟨mkHeader op false true ident, []⟩ = [] := bytesOf_of_not_carriesBytes hc
    exact ⟨accepted_of_not_carriesBytes p (by simp [hf, headerAllowed]) (hf ▸ hc) (by simp [hf, operandCount, hc]),
      by simp [encodeKey, keyOf, hnil]⟩

end

/-! ### Round trips (R80) -/

/-- A well-formed command's packet decodes to it. -/
theorem decode_encode {p : Params} {i : Instr} (h : i.wellFormed p = true) : decode p (encode i) = .ok i := by
  cases i with
  | spread x => exact (accepted_format_i p rfl x).decode_eq (by simp [assemble])
  | rehash x => exact (accepted_format_i p rfl x).decode_eq (by simp [assemble])
  | hash64 seed bytes =>
    obtain ⟨hacc, hbytes⟩ := accepted_format_s (op := .hash64) rfl seed h
    exact hacc.decode_eq (congrArg (Instr.hash64 seed) hbytes)
  | hashstr absent bytes =>
    obtain ⟨hacc, hbytes⟩ := accepted_bytesForm (op := .hashstr) rfl (.inr rfl) (.inl rfl) h
    exact hacc.decode_eq (congrArg₂ Instr.hashstr (headerA_mkHeader ..) hbytes)
  | hashid x => exact (accepted_format_i p rfl x).decode_eq (by simp [assemble])
  | ftest w => exact (accepted_format_w p rfl w).decode_eq rfl
  | fput w => exact (accepted_format_w p rfl w).decode_eq rfl
  | ensure ms => exact (accepted_format_w p rfl ms).decode_eq rfl
  | incr key =>
    obtain ⟨hacc, hkey⟩ := accepted_format_k (op := .incr) rfl h
    exact hacc.decode_eq (congrArg Instr.incr hkey)
  | freq key =>
    obtain ⟨hacc, hkey⟩ := accepted_format_k (op := .freq) rfl h
    exact hacc.decode_eq (congrArg Instr.freq hkey)
  | isninit => exact (accepted_format_z p rfl).decode_eq rfl
  | rdsr r => exact (accepted_format_i p rfl r).decode_eq (by simp [assemble])
  | rdtbl idx => exact (accepted_format_i p rfl idx).decode_eq (by simp [assemble])
  | rdflt q => exact (accepted_format_i p rfl q).decode_eq (by simp [assemble])

/-- An accepted packet is the packet of the command assembled from it. -/
theorem Accepted.encode_assemble {p : Params} {op : Opcode} {pk : Packet} (h : Accepted p op pk) :
    (assemble op pk).wellFormed p = true ∧ encode (assemble op pk) = pk := by
  cases op with
  | spread => exact ⟨rfl, h.eq_of_format_i rfl⟩
  | rehash => exact ⟨rfl, h.eq_of_format_i rfl⟩
  | hash64 => exact h.eq_of_format_s rfl
  | hashstr => exact h.eq_of_format_b rfl
  | hashid => exact ⟨rfl, h.eq_of_format_i rfl⟩
  | ftest => exact ⟨rfl, h.eq_of_format_w rfl⟩
  | fput => exact ⟨rfl, h.eq_of_format_w rfl⟩
  | ensure => exact ⟨rfl, h.eq_of_format_w rfl⟩
  | incr => exact h.eq_of_format_k rfl
  | freq => exact h.eq_of_format_k rfl
  | isninit => exact ⟨rfl, h.eq_of_format_z rfl⟩
  | rdsr => exact ⟨rfl, h.eq_of_format_i rfl⟩
  | rdtbl => exact ⟨rfl, h.eq_of_format_i rfl⟩
  | rdflt => exact ⟨rfl, h.eq_of_format_i rfl⟩

/-- The legal packets are the packets of the well-formed commands, and each decodes to its own command. -/
theorem decode_eq_ok_iff_encode {p : Params} {pk : Packet} {i : Instr} :
    decode p pk = .ok i ↔ i.wellFormed p = true ∧ encode i = pk := by
  constructor
  · intro hd
    obtain ⟨op, hacc, rfl⟩ := decode_eq_ok_iff.mp hd
    exact hacc.encode_assemble
  · rintro ⟨h, rfl⟩
    exact decode_encode h

/-- The header that the encoder writes matches the command's row of the opcode table (R86). -/
theorem encode_matches_row (i : Instr) : (encode i).header &&& rowMask i.opcode.format = rowMatch i.opcode := by
  cases i with
  | spread x => exact Laws.RowHeader.spread x
  | rehash x => exact Laws.RowHeader.rehash x
  | hash64 seed bytes => exact Laws.RowHeader.hash64 seed bytes
  | hashstr absent bytes => exact Laws.RowHeader.hashstr absent bytes
  | hashid x => exact Laws.RowHeader.hashid x
  | ftest h => exact Laws.RowHeader.ftest h
  | fput h => exact Laws.RowHeader.fput h
  | ensure ms => exact Laws.RowHeader.ensure ms
  | incr key => exact Laws.RowHeader.incr key
  | freq key => exact Laws.RowHeader.freq key
  | isninit => exact Laws.RowHeader.isninit
  | rdsr r => exact Laws.RowHeader.rdsr r
  | rdtbl idx => exact Laws.RowHeader.rdtbl idx
  | rdflt q => exact Laws.RowHeader.rdflt q

/-! ### The statements -/

/-- Settles O43: the packet the encoder writes passes the checks of its format and is assembled to its operands. -/
theorem decodeOfEncodeIsTheCommand : Obligations.DecodeOfEncodeIsTheCommand := fun _ _ h => decode_encode h

/-- Settles O44: the packet passed the checks, and these leave no other packet with its operands. -/
theorem encodeOfDecodeIsThePacket : Obligations.EncodeOfDecodeIsThePacket := fun _ _ _ => decode_eq_ok_iff_encode.mp

/-- Settles O47: a legal packet is its command's packet, whose header matches the row; every row fixes its own opcode
byte. -/
theorem legalHeadersMatchTheirRow : Obligations.LegalHeadersMatchTheirRow := by
  refine ⟨fun p pk i hd => ?_, fun h a b ha hb => ?_⟩
  · obtain ⟨-, rfl⟩ := decode_eq_ok_iff_encode.mp hd
    exact encode_matches_row i
  · exact Opcode.code_injective ((headerOpc_of_row ha).symm.trans (headerOpc_of_row hb))

/-- Settles O48: each malformation contradicts one of the checks, the flags and the immediate check 3. -/
theorem malformedPacketsAreIllegal : Obligations.MalformedPacketsAreIllegal := by
  intro p pk op hop hbad
  refine decode_error_of_not_accepted hop fun hacc => ?_
  obtain ⟨hboth, hA, hP, himm⟩ := headerAllowed_iff.mp hacc.allowed
  rcases hbad with hmbz | hAP | ⟨ha, hk, hb⟩ | ⟨hp, hk⟩ | ⟨hne, hi, hk⟩ | ⟨hc, hlt⟩ | hcount
  · exact hmbz hacc.mbz
  · exact hboth hAP
  · exact (hA ha).elim hk hb
  · exact hk (hP hp)
  · exact himm.elim hne (·.elim hi hk)
  · have hadm := (hacc.lenWord_of_carriesBytes hc).2
    simp only [lenAdmitted, Bool.or_eq_true, beq_iff_eq, decide_eq_true_eq] at hadm
    omega
  · exact hcount hacc.count

/-- Settles O45: each command is well formed, its lengths being at most 9, and encodes to the packet. -/
theorem workedEncodingsDecode : Obligations.WorkedEncodingsDecode := by
  intro p hmax
  have hlen : ∀ n ≤ 9, lengthOk p n = true := fun n hn => by
    simp only [lengthOk, Bool.or_eq_true, Bool.and_eq_true, beq_iff_eq, decide_eq_true_eq]
    omega
  simp only [decode_eq_ok_iff_encode]
  exact ⟨⟨rfl, rfl⟩, ⟨rfl, rfl⟩, ⟨rfl, rfl⟩, ⟨rfl, rfl⟩, ⟨rfl, rfl⟩, ⟨rfl, rfl⟩, ⟨hlen 1 (by decide), rfl⟩, ⟨rfl, rfl⟩,
    ⟨rfl, rfl⟩, ⟨hlen 9 (by decide), rfl⟩, ⟨rfl, rfl⟩, ⟨rfl, rfl⟩, ⟨hlen 3 (by decide), rfl⟩⟩

/-- Settles O46: all but the fourteen codes are left, and the opcode check finds no command for them. -/
theorem unassignedOpcodesAreIllegal : Obligations.UnassignedOpcodesAreIllegal := by
  refine ⟨Opcode.countP_unassigned, fun p pk hne => ?_⟩
  have hnone : Opcode.ofByte (headerOpc pk.header) = none :=
    Option.eq_none_iff_forall_ne_some.mpr fun op hop => hne op (Opcode.ofByte_eq_some_iff.mp hop)
  simp [decode, hnone]

end Sys2Proof

namespace Sys2Proof.Machine

theorem decodePacket_eq_none_of_error {pk : Packet} {e : Illegal} (hd : decode Config.params pk = .error e) :
    decodePacket pk = none := by
  simp [decodePacket, hd]

/-- Settles O51: the engine's decoder rejects what the decoder rejects for its parameters. -/
theorem stepAnswersIllegalPackets : Obligations.StepAnswersIllegalPackets := fun _ _ _ _ hin hd =>
  step_rejected hin (decodePacket_eq_none_of_error hd)

end Sys2Proof.Machine

/-! # The Mixing Hash: the statements about 40_hash.md

`spread` is a chain of xor-shifts and of multiplications by the two multipliers, each injective, and an injective
function on a finite type is a bijection. The commands answer these functions of their operands alone. -/

namespace Sys2Proof.Machine

/-! ### The rounds (R100, R102) -/

/-- The xor-shift of R100 and R102, at any width: the word xor its own logical right shift. -/
def xorShift {w : Nat} (k : Nat) (x : BitVec w) : BitVec w := x ^^^ (x >>> k)

theorem spread_eq_comp (p : Params) :
    spread p = xorShift 15 ∘ (· * p.c2) ∘ xorShift 11 ∘ (· * p.c1) ∘ xorShift 17 := rfl

theorem rehash_eq_xorShift (p : Params) (x : U32) : rehash p x = xorShift 14 (x * p.c3) := rfl

@[simp] theorem xorShift_zero {w : Nat} (k : Nat) : xorShift k 0#w = 0#w := by
  simp [xorShift]

@[simp] theorem spread_zero (p : Params) : spread p 0#32 = 0#32 := by
  simp [spread_eq_comp]

@[simp] theorem rehash_zero (p : Params) : rehash p 0#32 = 0#32 := by
  simp [rehash_eq_xorShift]

/-- The top `k` bits of an xor-shift are those of the word; every lower bit then follows from the one `k` above it. -/
theorem xorShift_injective {w k : Nat} (hk : 0 < k) : Function.Injective (xorShift k : BitVec w → BitVec w) := by
  intro x y hxy
  have hbit (i : Nat) : (x.getLsbD i ^^ x.getLsbD (k + i)) = (y.getLsbD i ^^ y.getLsbD (k + i)) := by
    simpa [xorShift] using congrArg (BitVec.getLsbD · i) hxy
  have hdown (n : Nat) : ∀ i, w ≤ i + n → x.getLsbD i = y.getLsbD i := by
    induction n with
    | zero =>
      intro i hi
      rw [BitVec.getLsbD_of_ge x i hi, BitVec.getLsbD_of_ge y i hi]
    | succ n ih =>
      intro i hi
      have habove : x.getLsbD (k + i) = y.getLsbD (k + i) := ih (k + i) (by omega)
      simpa [habove] using hbit i
  exact BitVec.eq_of_getLsbD_eq fun i _ => hdown w i (by omega)

/-- An odd multiplier is coprime to the modulus `2 ^ w`, so it cancels. -/
theorem mul_right_injective_of_odd {w : Nat} {c : BitVec w} (hc : c.getLsbD 0 = true) :
    Function.Injective (· * c) := by
  intro x y hxy
  have hodd : Odd c.toNat := by
    simpa [BitVec.getLsbD, Nat.odd_iff] using hc
  have hmod : x.toNat * c.toNat ≡ y.toNat * c.toNat [MOD 2 ^ w] := by
    simpa [Nat.ModEq] using congrArg BitVec.toNat hxy
  have hcancel : x.toNat ≡ y.toNat [MOD 2 ^ w] :=
    hmod.cancel_right_of_coprime (hodd.coprime_two_left.pow_left w)
  exact BitVec.eq_of_toNat_eq (hcancel.eq_of_lt_of_lt x.isLt y.isLt)

theorem spread_injective {p : Params} (h1 : p.c1.getLsbD 0 = true) (h2 : p.c2.getLsbD 0 = true) :
    Function.Injective (spread p) := by
  rw [spread_eq_comp]
  exact (xorShift_injective (by decide)).comp <| (mul_right_injective_of_odd h2).comp <|
    (xorShift_injective (by decide)).comp <| (mul_right_injective_of_odd h1).comp (xorShift_injective (by decide))

/-! ### The 64-bit hashes (R104, R106, R108) -/

@[simp] theorem hashStr_absent (p : Params) (bytes : List Byte) : hashStr p true bytes = 0 := rfl

@[simp] theorem hashStr_present (p : Params) (bytes : List Byte) :
    hashStr p false bytes = p.hash64 bytes seedStr := rfl

theorem keyHash64_of_bytes (p : Params) {key : Key} (hp : key.path = .bytes) :
    keyHash64 p key = hashStr p key.absent key.bytes := by
  simp [keyHash64, hp]

theorem keyHash64_of_ident (p : Params) {key : Key} (hp : key.path = .ident) :
    keyHash64 p key = p.idHash64 key.ident := by
  simp [keyHash64, hp]

@[simp] theorem finishHash_zero (hm : Word) (hr : Nat) : finishHash hm hr 0#64 = 0#64 := by
  simp [finishHash]

/-- Of no bytes there is no chunk and no tail, and the length adds nothing to the seed. -/
theorem hash64Reference_nil (hm : Word) (hr : Nat) (seed : Word) :
    hash64Reference hm hr [] seed = finishHash hm hr seed := by
  simp [hash64Reference]

/-! ### What the commands answer (R101, R103, R105, R107, R110) -/

theorem exec_spread (x : U32) (s : State) :
    exec (.spread x) s = .next (s.respond .ok ((spread Config.params x).setWidth 64)) := rfl

theorem exec_rehash (x : U32) (s : State) :
    exec (.rehash x) s = .next (s.respond .ok ((rehash Config.params x).setWidth 64)) := rfl

theorem exec_hash64 (seed : Word) (bytes : List Byte) (s : State) :
    exec (.hash64 seed bytes) s = .next (s.respond .ok (Config.hash64 bytes seed)) := rfl

theorem exec_hashstr (absent : Bool) (bytes : List Byte) (s : State) :
    exec (.hashstr absent bytes) s = .next (s.respond .ok (hashStr Config.params absent bytes)) := rfl

theorem exec_hashid (x : U32) (s : State) :
    exec (.hashid x) s = .next (s.respond .ok (Config.idHash64 x)) := rfl

/-! ### The statements -/

/-- Settles O4: `spread` is injective, and the words are finitely many. -/
theorem spreadIsBijectiveForOddMultipliers : Obligations.SpreadIsBijectiveForOddMultipliers := by
  intro p h1 h2
  have : Finite U32 := .of_injective _ BitVec.toFin_injective
  exact (spread_injective h1 h2).bijective_of_finite

/-- Settles O1: the intermediate values are those of `spread`. -/
theorem spreadAnswersTheThreeRoundMix : Obligations.SpreadAnswersTheThreeRoundMix := fun x s =>
  ⟨_, _, _, _, _, rfl, rfl, rfl, rfl, rfl, exec_spread x s⟩

/-- Settles O2: the intermediate values are those of `rehash`. -/
theorem rehashAnswersTheFurtherRound : Obligations.RehashAnswersTheFurtherRound := fun x s =>
  ⟨_, _, rfl, rfl, exec_rehash x s⟩

/-- Settles O3: both functions keep 0. -/
theorem spreadAndRehashOfZeroAnswerZero : Obligations.SpreadAndRehashOfZeroAnswerZero := fun s =>
  ⟨by simp [exec_spread], by simp [exec_rehash]⟩

/-- Settles O5: what each of the commands answers; `HASHSTR` by its two forms. -/
theorem hashCommandsAnswerTheHash : Obligations.HashCommandsAnswerTheHash := fun seed bytes x s =>
  ⟨exec_hash64 seed bytes s, exec_hashstr false bytes s, exec_hashstr true bytes s, exec_hashid x s⟩

/-- Settles O6: what each of the five commands answers does not mention the state. -/
theorem hashAnswersDependOnThePacketAlone : Obligations.HashAnswersDependOnThePacketAlone := by
  intro i hi
  cases i with
  | spread x => exact ⟨_, exec_spread x⟩
  | rehash x => exact ⟨_, exec_rehash x⟩
  | hash64 seed bytes => exact ⟨_, exec_hash64 seed bytes⟩
  | hashstr absent bytes => exact ⟨_, exec_hashstr absent bytes⟩
  | hashid x => exact ⟨_, exec_hashid x⟩
  | ftest | fput | ensure | incr | freq | isninit | rdsr | rdtbl | rdflt => simp [Instr.opcode] at hi

/-- Settles O7: the finish is all that is left for no bytes, and it keeps 0. -/
theorem referenceHashOfNothingIsZero : Obligations.ReferenceHashOfNothingIsZero := fun hm hr =>
  (hash64Reference_nil hm hr 0).trans (finishHash_zero hm hr)

/-- Settles O24: by the key's path and, on the bytes path, by whether the key is absent. -/
theorem keyHashFollowsThePath : Obligations.KeyHashFollowsThePath := by
  refine fun key => ⟨fun hp ha => ?_, fun hp ha => ?_, keyHash64_of_ident Config.params⟩
  · rw [keyHash64_of_bytes _ hp, ha, hashStr_absent]
  · rw [keyHash64_of_bytes _ hp, ha, hashStr_present]
    rfl

end Sys2Proof.Machine

/-! # The Doorkeeper Filter's geometry: the statements about 41_filter.md R120 to R122

`kappa` lies strictly between two neighbouring fractions whose denominators sum to more than `2^30`, and so does the
model's 28-digit fraction for it. No fraction with a denominator of at most `2^30` lies strictly between the two
neighbours, so for every admissible capacity the two products round alike. -/

namespace Sys2Proof.Machine

/-! ### Logarithms to 22 digits

The partial sums of the series of `log ((1 + x) / (1 - x))` at `x = 1 / 3` and at `x = 1 / 9`, with Mathlib's bounds on
the rest. The neighbours of `kappa_bounds` call for 21 digits. -/

theorem log_two_bounds : (0.6931471805599453094172 : ℝ) < Real.log 2 ∧ Real.log 2 < 0.6931471805599453094173 := by
  have hlo := Real.sum_range_le_log_div (x := 1 / 3) (by norm_num) (by norm_num) 24
  have hhi := Real.log_div_le_sum_range_add (x := 1 / 3) (by norm_num) (by norm_num) 24
  norm_num [Finset.sum_range_succ] at hlo hhi
  constructor <;> linarith

theorem log_five_fourths_bounds :
    (0.2231435513142097557662 : ℝ) < Real.log (5 / 4) ∧ Real.log (5 / 4) < 0.2231435513142097557664 := by
  have hlo := Real.sum_range_le_log_div (x := 1 / 9) (by norm_num) (by norm_num) 12
  have hhi := Real.log_div_le_sum_range_add (x := 1 / 9) (by norm_num) (by norm_num) 12
  norm_num [Finset.sum_range_succ] at hlo hhi
  constructor <;> linarith

theorem log_fifty : Real.log 50 = 5 * Real.log 2 + 2 * Real.log (5 / 4) := by
  calc Real.log 50 = Real.log (2 ^ 5 * (5 / 4) ^ 2) := by norm_num
    _ = 5 * Real.log 2 + 2 * Real.log (5 / 4) := by
      rw [Real.log_mul (by norm_num) (by norm_num), Real.log_pow, Real.log_pow]
      norm_num

/-! ### `KAPPA` (R121) -/

/-- `KAPPA = ln(50) / (ln 2)^2` (R121). -/
noncomputable def kappa : ℝ := Real.log 50 / Real.log 2 ^ 2

/-- The two neighbours; 884598016 is the denominator of the continued fraction that R121 names. -/
theorem kappa_bounds : (6007825697 / 737847901 : ℝ) < kappa ∧ kappa < 7202718453 / 884598016 := by
  obtain ⟨hlo, hhi⟩ := log_two_bounds
  obtain ⟨hlo', hhi'⟩ := log_five_fourths_bounds
  have hpos : 0 < Real.log 2 ^ 2 := by positivity
  have hsqlo : 0.6931471805599453094172 ^ 2 < Real.log 2 ^ 2 := by gcongr
  have hsqhi : Real.log 2 ^ 2 < 0.6931471805599453094173 ^ 2 := by gcongr
  rw [kappa, log_fifty, lt_div_iff₀ hpos, div_lt_iff₀ hpos]
  constructor <;> linarith

/-- Between two neighbouring fractions `a / b` and `c / d` every fraction has a denominator of at least `b + d`. -/
theorem le_or_le_of_neighbours {a b c d n m : ℤ} (hdet : b * c - a * d = 1) (hb : 0 < b) (hd : 0 < d)
    (hn : n < b + d) : m * b ≤ n * a ∨ n * c ≤ m * d := by
  by_contra! h
  obtain ⟨hlo, hhi⟩ := h
  have hn' : n = b * (n * c - m * d) + d * (m * b - n * a) := by linear_combination -n * hdet
  have h1 : b ≤ b * (n * c - m * d) := le_mul_of_one_le_right hb.le (by omega)
  have h2 : d ≤ d * (m * b - n * a) := le_mul_of_one_le_right hd.le (by omega)
  omega

/-- The fractions of `kappa_bounds` are neighbours, and their denominators sum to more than `2^30`. -/
theorem le_or_le_kappa_neighbours {n : Nat} (hn : n ≤ 2 ^ 30) (m : Nat) :
    m * 737847901 ≤ n * 6007825697 ∨ n * 7202718453 ≤ m * 884598016 := by
  have := le_or_le_of_neighbours (a := 6007825697) (b := 737847901) (c := 7202718453) (d := 884598016) (n := n)
    (m := m) (by norm_num) (by norm_num) (by norm_num) (by omega)
  omega

/-- `filterLength` rounds the product with the fraction `kappaNum / kappaDen` down and adds 1. That fraction and `kappa`
lie between the same neighbours, so no integer separates the two products. -/
theorem filterLength_near {n : Nat} (hpos : 0 < n) (hn : n ≤ 2 ^ 30) :
    (filterLength n : ℝ) - 1 < n * kappa ∧ n * kappa < filterLength n := by
  have hdef : filterLength n = n * kappaNum / kappaDen + 1 := by
    rw [filterLength, max_eq_left (Nat.succ_le_of_lt hpos)]
  have hlo : n * kappaNum / kappaDen * 737847901 ≤ n * 6007825697 :=
    (le_or_le_kappa_neighbours hn _).resolve_right (by unfold kappaNum kappaDen; omega)
  have hhi : n * 7202718453 ≤ (n * kappaNum / kappaDen + 1) * 884598016 :=
    (le_or_le_kappa_neighbours hn _).resolve_left (by unfold kappaNum kappaDen; omega)
  rw [hdef]
  generalize n * kappaNum / kappaDen = m at hlo hhi
  have hloR : (m : ℝ) * 737847901 ≤ n * 6007825697 := by exact_mod_cast hlo
  have hhiR : (n : ℝ) * 7202718453 ≤ (m + 1) * 884598016 := by exact_mod_cast hhi
  obtain ⟨hklo, hkhi⟩ := kappa_bounds
  have hposR : (0 : ℝ) < n := by exact_mod_cast hpos
  have hnlo := mul_lt_mul_of_pos_left hklo hposR
  have hnhi := mul_lt_mul_of_pos_left hkhi hposR
  push_cast
  constructor <;> linarith

/-! ### The formula of R120 -/

theorem filterLength_max_one (n : Nat) : filterLength (max n 1) = filterLength n := by simp [filterLength]

theorem ceil_mul_kappa {n : Nat} (hpos : 0 < n) (hn : n ≤ 2 ^ 30) : ⌈(n : ℝ) * kappa⌉ = (filterLength n : ℤ) := by
  obtain ⟨hlo, hhi⟩ := filterLength_near hpos hn
  rw [Int.ceil_eq_iff, Int.cast_natCast]
  exact ⟨hlo, hhi.le⟩

theorem neg_mul_log_div_eq (x : ℝ) : -x * Real.log (1 / 50) / Real.log 2 ^ 2 = x * kappa := by
  rw [kappa, one_div, Real.log_inv]
  ring

/-- The quotient lies between `kappa` and `kappa + 1`, so its product with `log 2` between 5.6 and 6.4 (R122). -/
theorem round_filterLength_div_mul_log {n : Nat} (hpos : 0 < n) (hn : n ≤ 2 ^ 30) :
    ⌊(filterLength n : ℝ) / n * Real.log 2 + 1 / 2⌋ = 6 := by
  obtain ⟨hlo, hhi⟩ := filterLength_near hpos hn
  obtain ⟨hklo, hkhi⟩ := kappa_bounds
  obtain ⟨hllo, hlhi⟩ := log_two_bounds
  have hone : (1 : ℝ) ≤ n := by exact_mod_cast hpos
  have hqlo : kappa < (filterLength n : ℝ) / n := by
    rwa [lt_div_iff₀' (by linarith)]
  have hqhi : (filterLength n : ℝ) / n < kappa + 1 := by
    rw [div_lt_iff₀' (by linarith)]
    linarith
  rw [Int.floor_eq_iff]
  constructor
  · have : 8.142 * 0.693 ≤ (filterLength n : ℝ) / n * Real.log 2 := by gcongr <;> linarith
    norm_num at this ⊢
    linarith
  · have : (filterLength n : ℝ) / n * Real.log 2 ≤ 9.143 * 0.694 := by gcongr <;> linarith
    norm_num at this ⊢
    linarith

/-! ### The statements -/

/-- Settles O10: for `max n 1`, at which the geometry is that of `n`; both clamps to 1 are idle. -/
theorem filterGeometryIsTheExactRealFormula : Obligations.FilterGeometryIsTheExactRealFormula := by
  intro n hn
  have hpos : 0 < max n 1 := by omega
  have hmax : max n 1 ≤ 2 ^ 30 := by omega
  have hlen : (1 : ℤ) ≤ filterLength n := by exact_mod_cast filterLength_pos n
  constructor
  · rw [neg_mul_log_div_eq, ceil_mul_kappa hpos hmax, filterLength_max_one, max_eq_right hlen]
    rfl
  · simp only [filterGeometry]
    rw [← filterLength_max_one, round_filterLength_div_mul_log hpos hmax]
    rfl

/-- Settles O9: the geometry evaluates. -/
theorem filterGeometryHasTheTabledValues : Obligations.FilterGeometryHasTheTabledValues := by
  unfold Obligations.FilterGeometryHasTheTabledValues
  decide

end Sys2Proof.Machine

/-! # The Doorkeeper Filter's commands: the statements about 41_filter.md R124 to R130

In a good state the probes lie inside the bit array, so `FTEST` and `FPUT` go on. What they answer is said in terms of
the probes of a hash by number; which bits a command keeps is read off its `Effect`. -/

namespace Sys2Proof.Machine

/-! ### Probes by number (R124) -/

theorem State.mem_probes (s : State) (h : Word) (j : Nat) : j ∈ s.probes h ↔ ∃ i < s.fltK, j = s.probe h i :=
  mem_positions s.fltM s.fltK h j

theorem State.mightContain_iff_probe (s : State) (h : Word) :
    s.mightContain h = true ↔ s.fltInit = true ∧ ∀ i < s.fltK, s.probe h i ∈ s.bits := by
  rw [State.mightContain_iff]
  refine and_congr_right fun _ => ⟨fun hall i hi => hall _ ((s.mem_probes h _).mpr ⟨i, hi, rfl⟩), fun hall j hj => ?_⟩
  obtain ⟨i, hi, rfl⟩ := (s.mem_probes h j).mp hj
  exact hall i hi

theorem State.newlyObserved_iff_probe (s : State) (h : Word) :
    s.newlyObserved h = true ↔ s.fltInit = true ∧ ∃ i < s.fltK, s.probe h i ∉ s.bits := by
  have hm := s.mightContain_iff_probe h
  rw [State.newlyObserved_eq, Bool.and_eq_true, Bool.not_eq_true', ← Bool.not_eq_true, hm]
  refine and_congr_right fun hf => ?_
  simp [hf]

theorem State.mem_putBits_iff_probe (s : State) (h : Word) (j : Nat) :
    j ∈ (s.putBits h).bits ↔ j ∈ s.bits ∨ (s.fltInit = true ∧ ∃ i < s.fltK, j = s.probe h i) := by
  rw [State.mem_putBits, State.mem_probes]

/-! ### What the commands answer (R127, R129) -/

theorem boolWord_eq_ite {b : Bool} {P : Prop} [Decidable P] (hb : b = true ↔ P) :
    boolWord b = if P then 1 else 0 := by
  simp [boolWord, hb]

theorem State.Inv.exec_ftest {s : State} (hs : s.Inv) (h : Word) :
    exec (.ftest h) s = .next (s.respond .ok (boolWord (s.mightContain h))) :=
  if_pos (hs.probesInside h)

theorem State.Inv.exec_fput {s : State} (hs : s.Inv) (h : Word) :
    exec (.fput h) s = .next ((s.putBits h).respond .ok (boolWord (s.newlyObserved h))) :=
  if_pos (hs.probesInside h)

/-- In a good state whose filter contains the hash, `FPUT` only answers 0 (R129). -/
theorem State.Inv.exec_fput_of_mightContain {s : State} (hs : s.Inv) {h : Word} (hc : s.mightContain h = true) :
    exec (.fput h) s = .next (s.respond .ok 0) := by
  rw [hs.exec_fput, State.putBits_of_mightContain s h hs.bitsCanonical.1 hc, State.newlyObserved_eq, hc]
  simp [boolWord]

/-- The frame of `FPUT`: the bits and the response (R129). -/
theorem State.putBits_respond_eq (s : State) (h : Word) (st : Status) (v : Word) :
    (s.putBits h).respond st v =
      { s with bits := (s.putBits h).bits, responses := s.responses ++ [⟨st.word, v⟩] } := by
  unfold State.putBits
  split <;> rfl

/-! ### Which bits a command keeps (R130) -/

/-- `ENSURE` leaves the engine as it is or starts a new bit array; the array it drops is empty, or the table was shorter
than the capacity (R125, R145). -/
theorem State.Inv.ensureCapacity_bits {s : State} (hs : s.Inv) (ms : Nat) :
    (∀ j ∈ s.bits, j ∈ (s.ensureCapacity ms).bits) ∨
      (s.tableLen < min ms capMax ∧ (s.ensureCapacity ms).bits = []) := by
  rw [hs.ensureCapacity_eq]
  split
  · exact .inl fun _ hj => hj
  next hc =>
    cases hi : s.init with
    | false =>
      obtain ⟨-, -, -, -, -, -, -, -, -, -, hbits⟩ := hs.uninitialised hi
      exact .inl (by simp [hbits])
    | true => exact .inr ⟨by simpa [State.covers, hi] using hc, rfl⟩

theorem Effect.bits_kept_or_recreated {s u : State} {i : Instr} (he : Effect s i u) (hs : s.Inv) :
    (∀ j ∈ s.bits, j ∈ u.bits) ∨
      ∃ ms, i = .ensure ms ∧ 0 ≤ ms.toInt ∧ s.tableLen < min ms.toNat capMax ∧ u.bits = [] := by
  have hput (h : Word) : ∀ j ∈ s.bits, j ∈ (s.putBits h).bits := fun j hj => (s.mem_putBits h j).mpr (.inl hj)
  cases he with
  | unchanged => exact .inl fun _ hj => hj
  | put h => exact .inl (hput h)
  | ensured ms hms => exact (hs.ensureCapacity_bits ms.toNat).imp_right fun hr => ⟨ms, rfl, hms, hr⟩
  | doorkept key _ => exact .inl (hput _)
  | counted key _ =>
    rw [State.count_bits]
    exact .inl (hput _)

/-! ### The statements -/

/-- Settles O11: `FTEST` answers `mightContain`, which speaks of the probes by number. -/
theorem ftestAnswersMembership : Obligations.FtestAnswersMembership := by
  intro h s hs
  rw [hs.exec_ftest, boolWord_eq_ite (s.mightContain_iff_probe h)]

/-- Settles O12: the state after `FPUT` differs from the one before in the bits and the response alone. -/
theorem fputSetsTheProbedBits : Obligations.FputSetsTheProbedBits := by
  refine fun h s hs => ⟨_, hs.exec_fput h, ?_, s.mem_putBits_iff_probe h⟩
  rw [boolWord_eq_ite (s.newlyObserved_iff_probe h)]
  exact s.putBits_respond_eq h .ok _

/-- Settles O13: the state after `FPUT` is good and its filter contains the hash. -/
theorem fputLeavesNoFalseNegative : Obligations.FputLeavesNoFalseNegative := by
  intro h s hs hf
  have hput := hs.exec_fput h
  have hinv := exec_inv hs hput
  have hc := s.mightContain_putBits h hf
  refine ⟨_, hput, ?_, hinv.exec_fput_of_mightContain hc⟩
  rw [hinv.exec_ftest, State.mightContain_respond, hc]
  rfl

/-- Settles O14: the response does not touch the bits, so by the command's effect. -/
theorem filterBitsAreClearedOnlyByRecreation : Obligations.FilterBitsAreClearedOnlyByRecreation := by
  intro i s t hs e
  obtain ⟨u, st, v, he, rfl⟩ := exec_effect e
  exact he.bits_kept_or_recreated hs

end Sys2Proof.Machine

/-! # The Frequency Sketch's sizing: the statements about 42_sketch.md R143 to R147

`ENSURE` of a non-negative operand is `ensureCapacity`; what that gives under the invariants, `ensureCapacity_eq` says.
The length of the table is a least power of two, and the sample size is read off the 32-bit remainder of the product. -/

namespace Sys2Proof.Machine

/-! ### `ENSURE` by its operand (R144, R145) -/

theorem execEnsure_of_neg {ms : Word} (s : State) (hms : ms.toInt < 0) :
    execEnsure ms s = .next (s.respond .arg 0) :=
  if_pos hms

theorem State.ensureCapacity_min (s : State) (n : Nat) : s.ensureCapacity (min n capMax) = s.ensureCapacity n := by
  simp [State.ensureCapacity]

theorem State.ensureCapacity_of_covers {s : State} {n : Nat} (hc : s.covers (min n capMax) = true) :
    s.ensureCapacity n = s :=
  if_pos hc

/-- Afterwards the table covers the clamped capacity: it did, or `tableLenFor` is long enough (R145, R146). -/
theorem State.min_le_ensureCapacity_tableLen (s : State) (n : Nat) :
    min n capMax ≤ (s.ensureCapacity n).tableLen := by
  unfold State.ensureCapacity
  split
  next hc =>
    simp only [State.covers, Bool.and_eq_true, decide_eq_true_eq] at hc
    exact hc.2
  · exact le_tableLenFor _

/-- A clamped operand is below `2^63`, so it is not negative, and it keeps its number. -/
theorem toNat_ofNat_min_capMax (n : Nat) : (BitVec.ofNat 64 (min n capMax)).toNat = min n capMax := by
  have : min n capMax ≤ 2 ^ 30 := Nat.min_le_right _ _
  exact Nat.mod_eq_of_lt (by omega)

theorem toInt_ofNat_min_capMax_nonneg (n : Nat) : 0 ≤ (BitVec.ofNat 64 (min n capMax)).toInt := by
  have : min n capMax ≤ 2 ^ 30 := Nat.min_le_right _ _
  rw [BitVec.toInt_eq_toNat_of_lt (by rw [toNat_ofNat_min_capMax]; omega)]
  exact Int.natCast_nonneg _

/-! ### The length of the table (R146) -/

/-- The length is the least power of two that is at least 8 and at least the capacity. -/
theorem tableLenFor_least (cap : Nat) : ∃ e, tableLenFor cap = 2 ^ e ∧ 8 ≤ 2 ^ e ∧ cap ≤ 2 ^ e ∧
    ∀ d, 8 ≤ 2 ^ d → cap ≤ 2 ^ d → 2 ^ e ≤ 2 ^ d := by
  obtain ⟨e, he⟩ : ∃ e, tableLenFor cap = 2 ^ e := by
    obtain ⟨e, he⟩ := npot_pow cap
    rcases le_total (npot cap) tblMin with hle | hle
    · exact ⟨3, max_eq_right hle⟩
    · exact ⟨e, (max_eq_left hle).trans he⟩
  refine ⟨e, he, he ▸ Nat.le_max_right _ _, he ▸ le_tableLenFor cap, fun d h8 hcap => ?_⟩
  rw [← he]
  exact max_le (npot_le cap d hcap) h8

/-! ### The sample size (R147) -/

/-- A word's signed reading is positive exactly when the word is neither 0 nor in the upper half. -/
theorem toInt_pos_iff (v : U32) : ¬ v.toInt ≤ 0 ↔ 0 < v.toNat ∧ v.toNat < 2 ^ 31 := by
  rw [BitVec.toInt_eq_toNat_cond]
  split <;> omega

/-- The sample size of a positive capacity, by the remainder of the product. -/
theorem sampleSizeFor_of_pos {cap : Nat} (hpos : 0 < cap) :
    sampleSizeFor cap =
      if 0 < 10 * cap % 2 ^ 32 ∧ 10 * cap % 2 ^ 32 < 2 ^ 31 then (BitVec.ofNat 32 (10 * cap), false)
      else (0, true) := by
  have hv := toInt_pos_iff (BitVec.ofNat 32 (10 * cap))
  rw [BitVec.toNat_ofNat] at hv
  unfold sampleSizeFor sampleFactor
  rw [if_neg hpos.ne']
  dsimp only
  split <;> rename_i hle
  · rw [if_neg fun hc => hv.mpr hc hle]
  · rw [if_pos (hv.mp hle)]

/-- Between an odd multiple of `2^31` and the next multiple of `2^32` the product gives no bound. -/
theorem sampleSizeFor_unbounded {cap : Nat} (q : Nat) (hlo : q * 2 ^ 32 + 2 ^ 31 ≤ 10 * cap)
    (hhi : 10 * cap ≤ (q + 1) * 2 ^ 32) : sampleSizeFor cap = (0, true) := by
  obtain ⟨v, hv⟩ := Nat.exists_eq_add_of_le hlo
  have hvle : v ≤ 2 ^ 31 := by omega
  rw [sampleSizeFor_of_pos (by omega), hv, Nat.add_assoc, Nat.mul_add_mod_self_right]
  clear hv hlo hhi
  exact if_neg (by omega)

/-- Between a multiple of `2^32` and the next odd multiple of `2^31` the product gives what it exceeds the former by. -/
theorem sampleSizeFor_bounded {cap : Nat} (q : Nat) (hlo : q * 2 ^ 32 < 10 * cap)
    (hhi : 10 * cap < q * 2 ^ 32 + 2 ^ 31) :
    sampleSizeFor cap = (BitVec.ofNat 32 (10 * cap - q * 2 ^ 32), false) := by
  obtain ⟨v, hv⟩ := Nat.exists_eq_add_of_le hlo.le
  have hvpos : 0 < v := by omega
  have hvlt : v < 2 ^ 31 := by omega
  have hmod : 10 * cap % 2 ^ 32 = v := by
    rw [hv, Nat.mul_add_mod_self_right, Nat.mod_eq_of_lt (hvlt.trans (by decide))]
  rw [sampleSizeFor_of_pos (by omega), hmod, if_pos ⟨hvpos, hvlt⟩, hv, Nat.add_sub_cancel_left]
  congr 1
  exact BitVec.eq_of_toNat_eq (by rw [BitVec.toNat_ofNat, BitVec.toNat_ofNat, Nat.mul_add_mod_self_right])

/-- Every sample size is even: `10 * cap` is, and so is the modulus. -/
theorem sampleSizeFor_even (cap : Nat) : (sampleSizeFor cap).1.toNat % 2 = 0 := by
  unfold sampleSizeFor
  split
  · rfl
  · dsimp only
    split
    · rfl
    · simp only [BitVec.toNat_ofNat, sampleFactor]
      omega

/-! ### The statements -/

/-- Settles O17: the values are those that `ensureCapacity` gives a table that does not cover the capacity; the mask is
that of a good state. -/
theorem ensureBuildsTableAndFilter : Obligations.EnsureBuildsTableAndFilter := by
  intro ms s hs hms hgrow
  have hc : ¬ s.covers (min ms.toNat capMax) = true := by
    rcases hgrow with hi | hlt
    · simp [State.covers, hi]
    · simp only [State.covers, Bool.and_eq_true, decide_eq_true_eq]
      exact fun hcov => hlt.not_ge hcov.2
  have hmask := (hs.ensureCapacity ms.toNat).blockMask (s.ensureCapacity_init ms.toNat)
  refine ⟨_, execEnsure_of_nonneg s hms, ?_⟩
  rw [hs.ensureCapacity_eq, if_neg hc] at hmask ⊢
  exact ⟨rfl, rfl, rfl, rfl, tableLenFor_least _, hmask, Memory.read_nil, rfl, rfl, rfl, rfl, rfl, rfl⟩

/-- Settles O16: by the sign of the operand, the clamp of `ensureCapacity`, and whether the table covers. -/
theorem ensureChecksClampsAndCovers : Obligations.EnsureChecksClampsAndCovers := by
  refine fun ms s => ⟨execEnsure_of_neg s, fun hms => ?_, fun hms hi hle => ?_, fun hms _ => ?_⟩
  · calc execEnsure ms s = .next ((s.ensureCapacity ms.toNat).respond .ok 0) := execEnsure_of_nonneg s hms
      _ = .next ((s.ensureCapacity (min ms.toNat capMax)).respond .ok 0) := by rw [s.ensureCapacity_min]
      _ = execEnsure (BitVec.ofNat 64 (min ms.toNat capMax)) s := by
        rw [execEnsure_of_nonneg s (toInt_ofNat_min_capMax_nonneg _), toNat_ofNat_min_capMax]
  · have hc : s.covers (min ms.toNat capMax) = true := by
      simpa [State.covers, hi] using show min ms.toNat capMax ≤ s.tableLen from hle
    exact (execEnsure_of_nonneg s hms).trans (by rw [State.ensureCapacity_of_covers hc])
  · exact ⟨_, execEnsure_of_nonneg s hms, s.ensureCapacity_init ms.toNat, s.min_le_ensureCapacity_tableLen ms.toNat⟩

/-- Settles O18: row by row, the product's quotient by `2^32` is 0, 1 or 2. -/
theorem sampleSizeFollowsTheMap : Obligations.SampleSizeFollowsTheMap := by
  intro cap hcap
  split_ifs with h0 h1 h2 h3 h4 h5
  · rw [h0]
    rfl
  · exact sampleSizeFor_bounded 0 (by omega) (by omega)
  · exact sampleSizeFor_unbounded 0 (by omega) (by omega)
  · exact sampleSizeFor_bounded 1 (by omega) (by omega)
  · exact sampleSizeFor_unbounded 1 (by omega) (by omega)
  · exact sampleSizeFor_bounded 2 (by omega) (by omega)
  · exact sampleSizeFor_unbounded 2 (by omega) (by omega)

/-- Settles O15. -/
theorem isninitAnswersUninitialised : Obligations.IsninitAnswersUninitialised := by
  intro s
  cases hi : s.init <;> simp [exec, execIsninit, boolWord, hi]

end Sys2Proof.Machine

/-! # The Frequency Sketch's counting: the statements about 42_sketch.md R142 and R149 to R152

After the increments of `INCR` every counter is as `State.raised` says. What counting a key's counters does is then one
of three: nothing where all are 15, else one count, or one count and an aging. -/

namespace Sys2Proof.Machine

/-! ### When an increment counts and when it ages (R149) -/

theorem State.sizePlusOne_eq (s : State) : s.sizePlusOne = (nextSize s.size).toNat := (nextSize_toNat s.size).symm

theorem State.atSample_iff (s : State) : s.atSample ↔ s.unbounded = false ∧ nextSize s.size = s.sampleSize := by
  rw [State.atSample, State.sizePlusOne_eq, BitVec.toNat_inj]

/-- With a bounded sample size `size` stays below it, so it never stops (R39 item 3). -/
theorem State.Inv.sizePlusOne_of_bounded {s : State} (hs : s.Inv) (hi : s.init = true) (hu : s.unbounded = false) :
    s.sizePlusOne = s.size.toNat + 1 :=
  s.sizePlusOne_eq.trans (hs.nextSize_toNat hi hu)

/-! ### Every counter after the increments (R142, R149) -/

theorem eight_dvd_blockBase (blockHash mask : U32) : 8 ∣ blockBase blockHash mask := Nat.dvd_mul_left _ _

/-- A key has one counter in a word. -/
theorem eq_of_mem_slots {p : Params} {ident mask : U32} {x y : Slot} (hx : x ∈ slots p ident mask)
    (hy : y ∈ slots p ident mask) (hw : x.word = y.word) : x = y := by
  have hnodup : ((slots p ident mask).map Slot.word).Nodup :=
    List.pairwise_map.mpr ((slots_pairwise p ident mask).imp Nat.ne_of_lt)
  exact List.inj_on_of_nodup_map hnodup hx hy hw

theorem State.raised_of_not_mem (s : State) {sl : List Slot} {j : Nat} (hj : ∀ x ∈ sl, x.word ≠ j) (c : Nat) :
    s.raised sl j c = counter (s.table.readWord j) c := by
  have hmem : Slot.mk j c ∉ sl := fun hx => hj _ hx rfl
  simp [State.raised, hmem]

theorem State.raised_of_mem (s : State) {sl : List Slot} {x : Slot} (hx : x ∈ sl) :
    s.raised sl x.word x.ctr = min (counter (s.table.readWord x.word) x.ctr + 1) 15 := by
  have hlt := counter_lt (s.table.readWord x.word) x.ctr
  simp only [State.raised, hx, true_and]
  split <;> omega

theorem State.le_raised (s : State) (sl : List Slot) (j c : Nat) :
    counter (s.table.readWord j) c ≤ s.raised sl j c :=
  Nat.le_add_right _ _

/-- The increments leave every counter of the table as `raised` says. -/
theorem State.Inv.counter_bumpAll {s : State} (hs : s.Inv) (p : Params) (ident : U32) (j c : Nat) :
    counter ((bumpAll s.table (slots p ident s.blockMask)).1.readWord j) c =
      s.raised (slots p ident s.blockMask) j c := by
  rw [readWord_bumpAll s.table hs.tableCanonical.1]
  by_cases hj : ∃ x ∈ slots p ident s.blockMask, x.word = j
  · obtain ⟨x, hx, rfl⟩ := hj
    rw [bumpedWord_of_mem _ _ (slots_pairwise p ident s.blockMask) x hx,
      counter_addLane _ _ _ (slots_ctr p ident _ x hx)]
    have hmem : Slot.mk x.word c ∈ slots p ident s.blockMask ↔ c = x.ctr :=
      ⟨fun hy => congrArg Slot.ctr (eq_of_mem_slots hy hx rfl), fun hc => hc ▸ hx⟩
    unfold State.raised
    congr 2
    rw [hmem, eq_iff_iff]
    exact and_congr_right fun hc => by rw [hc]
  · have hne : ∀ x ∈ slots p ident s.blockMask, x.word ≠ j := fun x hx hxj => hj ⟨x, hx, hxj⟩
    rw [bumpedWord_of_not_mem _ _ _ hne, s.raised_of_not_mem hne]

theorem State.Inv.bumpAll_changed_iff {s : State} (hs : s.Inv) (p : Params) (ident : U32) :
    (bumpAll s.table (slots p ident s.blockMask)).2 = true ↔ s.acceptable (slots p ident s.blockMask) := by
  rw [bumpAll_changed s.table hs.tableCanonical.1 _ (slots_pairwise p ident s.blockMask)]
  simp [State.acceptable]

/-! ### The odd counters (R150, R152) -/

/-- The number of counters of the table that are odd after the increments. -/
def State.oddRaised (s : State) (sl : List Slot) : Nat :=
  ((List.range s.tableLen).map fun j => ((List.range 16).map fun c => s.raised sl j c % 2).sum).sum

theorem State.Inv.bumpAll_bound {s : State} (hs : s.Inv) (hi : s.init = true) (p : Params) (ident : U32) :
    ∀ c ∈ (bumpAll s.table (slots p ident s.blockMask)).1, c.1 < 8 * s.tableLen :=
  Machine.bumpAll_bound s.table hs.tableCanonical.1 _ s.tableLen (hs.slots_lt hi p ident) hs.tableCanonical.2

theorem State.Inv.oddCounters_bumpAll {s : State} (hs : s.Inv) (hi : s.init = true) (p : Params) (ident : U32) :
    (bumpAll s.table (slots p ident s.blockMask)).1.oddCounters = s.oddRaised (slots p ident s.blockMask) := by
  rw [Memory.oddCounters_eq _ s.tableLen (hs.bumpAll_bound hi p ident)]
  simp only [oddLanes_eq, hs.counter_bumpAll, State.oddRaised]

/-- The odd counters are at most the sum of all counters, which the four increments raise by at most 4 (R152). -/
theorem State.Inv.oddRaised_le {s : State} (hs : s.Inv) (hi : s.init = true) (p : Params) (ident : U32) :
    s.oddRaised (slots p ident s.blockMask) ≤ s.table.counterSum s.tableLen + 4 := by
  have hm := hs.tableCanonical.1
  have hhalve := counterSum_halveAll _ (bumpAll_wf s.table hm (slots p ident s.blockMask)) s.tableLen
    (hs.bumpAll_bound hi p ident)
  have hsum := counterSum_bumpAll s.table hm (slots p ident s.blockMask) s.tableLen (hs.slots_lt hi p ident)
    (slots_ctr p ident s.blockMask)
  rw [hs.oddCounters_bumpAll hi] at hhalve
  rw [slots_length] at hsum
  omega

/-! ### What counting a key does (R149, R150) -/

/-- Where all four counters are 15, nothing. -/
theorem State.Inv.count_of_not_acceptable {s : State} (hs : s.Inv) {p : Params} {ident : U32}
    (hacc : ¬ s.acceptable (slots p ident s.blockMask)) : s.count (slots p ident s.blockMask) = s := by
  have hch := mt (hs.bumpAll_changed_iff p ident).mp hacc
  simp only [State.count, hch, Bool.false_eq_true, if_false]
  rw [bumpAll_unchanged _ _ (by simpa using hch)]

theorem State.Inv.count_of_acceptable {s : State} (hs : s.Inv) {p : Params} {ident : U32}
    (hacc : s.acceptable (slots p ident s.blockMask)) :
    s.count (slots p ident s.blockMask) =
      { s with table := (bumpAll s.table (slots p ident s.blockMask)).1 : State }.accept :=
  if_pos ((hs.bumpAll_changed_iff p ident).mpr hacc)

/-- An accepted increment that does not reach the sample size counts in the table and in `size`. -/
theorem State.Inv.count_of_not_atSample {s : State} (hs : s.Inv) {p : Params} {ident : U32}
    (hacc : s.acceptable (slots p ident s.blockMask)) (hsample : ¬ s.atSample) :
    s.count (slots p ident s.blockMask) =
      { s with table := (bumpAll s.table (slots p ident s.blockMask)).1, size := nextSize s.size } := by
  rw [hs.count_of_acceptable hacc, State.accept_eq]
  exact if_neg (mt s.atSample_iff.mpr hsample)

/-- An accepted increment that reaches the sample size ages the table that the increments leave. -/
theorem State.Inv.count_of_atSample {s : State} (hs : s.Inv) (hi : s.init = true) {p : Params} {ident : U32}
    (hacc : s.acceptable (slots p ident s.blockMask)) (hsample : s.atSample) :
    s.count (slots p ident s.blockMask) =
      { s with
        table := (bumpAll s.table (slots p ident s.blockMask)).1.halveAll
        size := BitVec.ofNat 32 ((s.sizePlusOne - s.oddRaised (slots p ident s.blockMask) / 4) / 2) } := by
  rw [hs.count_of_acceptable hacc, State.accept_eq, s.sizePlusOne_eq, ← hs.oddCounters_bumpAll hi]
  exact if_pos (s.atSample_iff.mp hsample)

/-- The table is that of the increments unless the key is counted and ages. -/
theorem State.Inv.count_table {s : State} (hs : s.Inv) {p : Params} {ident : U32}
    (hquiet : ¬ (s.acceptable (slots p ident s.blockMask) ∧ s.atSample)) :
    (s.count (slots p ident s.blockMask)).table = (bumpAll s.table (slots p ident s.blockMask)).1 := by
  by_cases hacc : s.acceptable (slots p ident s.blockMask)
  · rw [hs.count_of_not_atSample hacc fun hsample => hquiet ⟨hacc, hsample⟩]
  · have hch := mt (hs.bumpAll_changed_iff p ident).mp hacc
    rw [hs.count_of_not_acceptable hacc, bumpAll_unchanged _ _ (by simpa using hch)]

/-- Every counter after an `INCR` that does not age. -/
theorem State.Inv.counter_count {s : State} (hs : s.Inv) {p : Params} {ident : U32}
    (hquiet : ¬ (s.acceptable (slots p ident s.blockMask) ∧ s.atSample)) (j c : Nat) :
    counter ((s.count (slots p ident s.blockMask)).table.readWord j) c = s.raised (slots p ident s.blockMask) j c := by
  rw [hs.count_table hquiet, hs.counter_bumpAll]

/-- Every counter after an `INCR` that ages. -/
theorem State.Inv.counter_count_of_atSample {s : State} (hs : s.Inv) (hi : s.init = true) {p : Params} {ident : U32}
    (hacc : s.acceptable (slots p ident s.blockMask)) (hsample : s.atSample) (j : Nat) {c : Nat} (hc : c < 16) :
    counter ((s.count (slots p ident s.blockMask)).table.readWord j) c =
      s.raised (slots p ident s.blockMask) j c / 2 := by
  rw [hs.count_of_atSample hi hacc hsample, Memory.readWord_halveAll _ (bumpAll_wf _ hs.tableCanonical.1 _) s.tableLen
    (hs.bumpAll_bound hi p ident), counter_halveLanes _ _ hc, hs.counter_bumpAll]

/-- Counting writes the table and `size` only. -/
theorem State.count_respond_eq (s : State) (sl : List Slot) (st : Status) (v : Word) :
    (s.count sl).respond st v =
      { s with
        table := (s.count sl).table
        size := (s.count sl).size
        responses := s.responses ++ [⟨st.word, v⟩] } := by
  unfold State.count State.accept
  dsimp only
  split
  · split <;> rfl
  · rfl

/-! ### `INCR` by whether the filter contains the key (R149) -/

theorem exec_incr_uninitialised (key : Key) {s : State} (hi : s.init = false) :
    exec (.incr key) s = .next (s.respond .ok 0) :=
  if_pos (by simp [hi])

theorem State.Inv.increment_of_contained {s : State} (hs : s.Inv) (hi : s.init = true) {p : Params} {key : Key}
    (hc : s.mightContain (keyHash64 p key) = true) :
    increment p key s = .next ((s.count (slots p key.ident s.blockMask)).respond .ok 0) := by
  rw [hs.increment_eq hi, if_pos hc]

theorem State.Inv.exec_incr_of_contained {s : State} (hs : s.Inv) (hi : s.init = true) {key : Key}
    (hc : s.mightContain (keyHash64 Config.params key) = true) :
    exec (.incr key) s = .next ((s.count (slots Config.params key.ident s.blockMask)).respond .ok 0) :=
  hs.increment_of_contained hi hc

theorem State.Inv.increment_of_new {s : State} (hs : s.Inv) (hi : s.init = true) {p : Params} {key : Key}
    (hc : s.mightContain (keyHash64 p key) = false) :
    increment p key s = .next ((s.putBits (keyHash64 p key)).respond .ok 0) := by
  rw [hs.increment_eq hi, if_neg (by simp [hc])]

/-! ### The statements -/

/-- Settles O28: the three cases of counting. -/
theorem incrCountsAKnownKey : Obligations.IncrCountsAKnownKey := by
  intro key s hs hi hc
  refine ⟨_, hs.increment_of_contained hi hc, s.count_respond_eq _ .ok 0, fun hacc => ?_, fun hacc hsample => ?_,
    fun hacc hsample => ?_⟩
  · rw [hs.count_of_not_acceptable hacc]
  · refine ⟨?_, fun j c _ => hs.counter_count (fun hage => hsample hage.2) j c⟩
    rw [State.respond_size, hs.count_of_not_atSample hacc hsample, s.sizePlusOne_eq]
  · refine ⟨?_, fun j c hlt => hs.counter_count_of_atSample hi hacc hsample j hlt⟩
    have hsize := (nextSize s.size).isLt
    rw [← s.sizePlusOne_eq] at hsize
    rw [State.respond_size, hs.count_of_atSample hi hacc hsample]
    exact Nat.mod_eq_of_lt (by omega)

/-- Settles O30: by the bound of R39 item 7, which holds below a bounded sample size. -/
theorem agingNeverSubtractsBelowZero : Obligations.AgingNeverSubtractsBelowZero := by
  intro key s hs hi hsample
  obtain ⟨-, hmax, hlt⟩ := hs.sample hi hsample.1
  have hsum := hs.counterSum (by omega)
  have hodd := hs.oddRaised_le hi Config.params key.ident
  have hsize := hs.sizePlusOne_of_bounded hi hsample.1
  change s.oddRaised _ / 4 ≤ s.sizePlusOne
  omega

/-- Settles O29: only the words of the key's counters are written. -/
theorem incrLeavesOtherTableBytes : Obligations.IncrLeavesOtherTableBytes := by
  intro key s t hs hi hsample e a ha
  cases hc : s.mightContain (keyHash64 Config.params key) with
  | false =>
    cases (hs.increment_of_new hi hc).symm.trans e
    rw [State.respond_table, State.putBits_table]
  | true =>
    cases (hs.increment_of_contained hi hc).symm.trans e
    rw [State.respond_table, hs.count_table fun hage => hsample hage.2]
    have hword : ∀ x ∈ slots Config.params key.ident s.blockMask, x.word ≠ a / 8 := fun x hx hxa =>
      ha x hx (by omega)
    refine Memory.read_eq_of_readWord (a / 8) ?_ a rfl
    rw [readWord_bumpAll _ hs.tableCanonical.1, bumpedWord_of_not_mem _ _ _ hword]

/-- Settles O27: an initialised engine has a built filter, and the new bits are those of `put`. -/
theorem incrOfANewKeyOnlySetsFilterBits : Obligations.IncrOfANewKeyOnlySetsFilterBits := by
  intro key s hs hi hc
  have hf : s.fltInit = true := hs.filterInit.trans hi
  refine ⟨_, hs.increment_of_new hi hc, s.putBits_respond_eq _ .ok 0, fun j => ?_⟩
  rw [State.respond_bits, State.mem_putBits_iff_probe]
  simp [hf]

/-- Settles O22: the block is the one that the mask selects; its last word is below the table's length. -/
theorem countersOfAKeyLieInOneBlock : Obligations.CountersOfAKeyLieInOneBlock := by
  intro p ident s hs hi
  obtain ⟨hlen, hdvd⟩ := hs.blocks hi
  have hmask := hs.blockMask hi
  have hbase := blockBase_le (spread p ident) s.blockMask
  refine ⟨slots_length p ident _, (slots_pairwise p ident _).imp Nat.ne_of_lt, blockBase (spread p ident) s.blockMask,
    eight_dvd_blockBase _ _, by omega, fun x hx => ?_⟩
  obtain ⟨hlo, hhi⟩ := slots_word p ident _ x hx
  exact ⟨hlo, by omega, slots_ctr p ident _ x hx⟩

/-- Settles O26. -/
theorem incrBeforeEnsureIsANoOp : Obligations.IncrBeforeEnsureIsANoOp := fun key _ hi => exec_incr_uninitialised key hi

end Sys2Proof.Machine

/-! # The Frequency Sketch's estimates: the statements about 42_sketch.md R148 and R153

`State.leastCounter` is the least of a key's four counters; `FREQ` of a key that the filter contains answers one more.
`State.Remembers` says that from one state to another a contained key stays contained and its least counter does not
fall: every command that neither ages nor grows has it, and the statements about several commands are inductions on that
step. -/

namespace Sys2Proof.Machine

/-! ### The least reading (R148, step 6) -/

theorem minReading_mem {rs : List Nat} (hne : rs ≠ []) (hle : ∀ r ∈ rs, r ≤ 15) : minReading rs ∈ rs := by
  induction rs with
  | nil => exact absurd rfl hne
  | cons a rs ih =>
    obtain ⟨ha, hrs⟩ := List.forall_mem_cons.mp hle
    have hcons : minReading (a :: rs) = min a (minReading rs) := rfl
    cases rs with
    | nil => exact List.mem_singleton.mpr (min_eq_left ha)
    | cons b rs =>
      rw [hcons]
      rcases min_choice a (minReading (b :: rs)) with h | h <;> rw [h]
      · exact List.mem_cons_self
      · exact List.mem_cons_of_mem _ (ih (List.cons_ne_nil b rs) hrs)

theorem minReading_map_mono {α : Type} {sl : List α} {f g : α → Nat} (h : ∀ x ∈ sl, f x ≤ g x) :
    minReading (sl.map f) ≤ minReading (sl.map g) := by
  refine le_minReading _ _ (minReading_le _) (List.forall_mem_map.mpr fun x hx => ?_)
  exact (minReading_le_of_mem _ _ (List.mem_map_of_mem hx)).trans (h x hx)

/-- Raising every reading by one, up to 15, raises the least by one, up to 15. -/
theorem minReading_map_succ (rs : List Nat) :
    minReading (rs.map fun r => min (r + 1) 15) = min (minReading rs + 1) 15 := by
  induction rs with
  | nil => rfl
  | cons a rs ih =>
    change min (min (a + 1) 15) (minReading (rs.map fun r => min (r + 1) 15)) = min (min a (minReading rs) + 1) 15
    rw [ih]
    omega

/-- The least of the key's four counters. -/
def State.leastCounter (s : State) (p : Params) (key : Key) : Nat :=
  minReading (s.readings (slots p key.ident s.blockMask))

@[simp] theorem State.leastCounter_respond (s : State) (st : Status) (v : Word) (p : Params) (key : Key) :
    (s.respond st v).leastCounter p key = s.leastCounter p key := rfl

@[simp] theorem State.leastCounter_putBits (s : State) (h : Word) (p : Params) (key : Key) :
    (s.putBits h).leastCounter p key = s.leastCounter p key := by
  simp [State.leastCounter, State.readings]

theorem State.leastCounter_le (s : State) (p : Params) (key : Key) : s.leastCounter p key ≤ 15 := minReading_le _

theorem State.leastCounter_le_of_mem (s : State) {p : Params} {key : Key} {x : Slot}
    (hx : x ∈ slots p key.ident s.blockMask) : s.leastCounter p key ≤ counter (s.table.readWord x.word) x.ctr :=
  minReading_le_of_mem _ _ (List.mem_map_of_mem hx)

theorem State.exists_leastCounter (s : State) (p : Params) (key : Key) :
    ∃ x ∈ slots p key.ident s.blockMask, s.leastCounter p key = counter (s.table.readWord x.word) x.ctr := by
  have hne : s.readings (slots p key.ident s.blockMask) ≠ [] :=
    List.ne_nil_of_length_pos (by simp [State.readings])
  have hle : ∀ r ∈ s.readings (slots p key.ident s.blockMask), r ≤ 15 :=
    List.forall_mem_map.mpr fun x _ => Nat.le_of_lt_succ (counter_lt _ _)
  obtain ⟨x, hx, hxr⟩ := List.mem_map.mp (minReading_mem hne hle)
  exact ⟨x, hx, hxr.symm⟩

/-- A table of zeros. -/
theorem State.leastCounter_of_empty {s : State} (ht : s.table = []) (p : Params) (key : Key) :
    s.leastCounter p key = 0 := by
  obtain ⟨x, -, hx⟩ := s.exists_leastCounter p key
  rw [hx, ht, Memory.readWord_nil, counter_zero]

/-! ### What `FREQ` answers (R148) -/

theorem State.Inv.not_contains_of_uninitialised {s : State} (hs : s.Inv) (hi : s.init = false) (h : Word) :
    s.mightContain h = false := by
  simp [State.mightContain, hs.filterInit, hi]

theorem State.Inv.frequency_of_absent {s : State} (hs : s.Inv) {p : Params} {key : Key}
    (hc : s.mightContain (keyHash64 p key) = false) : frequency p key s = .next (s.respond .ok 0) := by
  rw [hs.frequency_eq, if_neg (by simp [hc])]

theorem State.Inv.frequency_of_contained {s : State} (hs : s.Inv) {p : Params} {key : Key}
    (hc : s.mightContain (keyHash64 p key) = true) :
    frequency p key s = .next (s.respond .ok (BitVec.ofNat 64 (s.leastCounter p key + 1))) := by
  rw [hs.frequency_eq, if_pos hc]
  rfl

theorem State.respond_inj {s : State} {st : Status} {v w : Word} (e : s.respond st v = s.respond st w) : v = w := by
  simpa using congrArg State.responses e

/-- What `FREQ` of a contained key answers determines the least counter. -/
theorem State.Inv.leastCounter_eq_of_freq {s : State} (hs : s.Inv) {p : Params} {key : Key} {m : Nat}
    (hc : s.mightContain (keyHash64 p key) = true) (hm : m ≤ 15)
    (e : frequency p key s = .next (s.respond .ok (BitVec.ofNat 64 (m + 1)))) : s.leastCounter p key = m := by
  rw [hs.frequency_of_contained hc, Host.Outcome.next.injEq] at e
  have hv := congrArg BitVec.toNat (State.respond_inj e)
  have hle := s.leastCounter_le p key
  simp only [BitVec.toNat_ofNat] at hv
  omega

/-! ### Filter and readings under counting (R149, R151) -/

@[simp] theorem State.mightContain_count (s : State) (sl : List Slot) (h : Word) :
    (s.count sl).mightContain h = s.mightContain h := by
  simp [State.mightContain, State.probes]

/-- A filter that contains a hash still does after `put` of another. -/
theorem State.mightContain_putBits_of_mightContain {s : State} {h : Word} (hc : s.mightContain h = true) (k : Word) :
    (s.putBits k).mightContain h = true := by
  obtain ⟨hf, hall⟩ := (s.mightContain_iff h).mp hc
  rw [State.mightContain_iff, State.probes_putBits, State.putBits_fltInit]
  exact ⟨hf, fun j hj => (s.mem_putBits k j).mpr (.inl (hall j hj))⟩

/-- Counting one key, without aging, lowers no key's least counter. -/
theorem State.Inv.leastCounter_le_count {s : State} (hs : s.Inv) {p : Params} {ident : U32}
    (hquiet : ¬ (s.acceptable (slots p ident s.blockMask) ∧ s.atSample)) (key : Key) :
    s.leastCounter p key ≤ (s.count (slots p ident s.blockMask)).leastCounter p key := by
  unfold State.leastCounter State.readings
  rw [State.count_blockMask]
  refine minReading_map_mono fun x _ => ?_
  rw [hs.counter_count hquiet]
  exact s.le_raised _ _ _

/-- Counting a key, without aging, raises its own least counter by one, up to 15. -/
theorem State.Inv.leastCounter_count_self {s : State} (hs : s.Inv) {p : Params} {key : Key}
    (hquiet : ¬ (s.acceptable (slots p key.ident s.blockMask) ∧ s.atSample)) :
    (s.count (slots p key.ident s.blockMask)).leastCounter p key = min (s.leastCounter p key + 1) 15 := by
  unfold State.leastCounter State.readings
  rw [State.count_blockMask, ← minReading_map_succ, List.map_map]
  refine congrArg minReading (List.map_congr_left fun x hx => ?_)
  rw [hs.counter_count hquiet, s.raised_of_mem hx]
  rfl

/-- Counting a key, without aging, leaves the readings of a key of another block as they were. -/
theorem State.Inv.leastCounter_count_of_blockBase_ne {s : State} (hs : s.Inv) {p : Params} {k1 k2 : Key}
    (hquiet : ¬ (s.acceptable (slots p k1.ident s.blockMask) ∧ s.atSample))
    (hblock : blockBase (spread p k1.ident) s.blockMask ≠ blockBase (spread p k2.ident) s.blockMask) :
    (s.count (slots p k1.ident s.blockMask)).leastCounter p k2 = s.leastCounter p k2 := by
  unfold State.leastCounter State.readings
  rw [State.count_blockMask]
  refine congrArg minReading (List.map_congr_left fun y hy => ?_)
  rw [hs.counter_count hquiet, s.raised_of_not_mem]
  intro x hx hxy
  obtain ⟨hlo1, hhi1⟩ := slots_word p _ _ x hx
  obtain ⟨hlo2, hhi2⟩ := slots_word p _ _ y hy
  have hdvd1 := eight_dvd_blockBase (spread p k1.ident) s.blockMask
  have hdvd2 := eight_dvd_blockBase (spread p k2.ident) s.blockMask
  omega

/-! ### What a quiet command keeps (R153 item 2) -/

/-- From `s` to `t` the engine stays initialised, the filter still contains the key, and its least counter has not
fallen. -/
structure State.Remembers (s t : State) (p : Params) (key : Key) : Prop where
  init : t.init = true
  contained : t.mightContain (keyHash64 p key) = true
  least : s.leastCounter p key ≤ t.leastCounter p key

theorem State.Remembers.respond {s t : State} {p : Params} {key : Key} (h : s.Remembers t p key) (st : Status)
    (v : Word) : s.Remembers (t.respond st v) p key :=
  ⟨h.init, h.contained, h.least⟩

theorem State.remembers_self {s : State} {p : Params} {key : Key} (hi : s.init = true)
    (hc : s.mightContain (keyHash64 p key) = true) : s.Remembers s p key :=
  ⟨hi, hc, Nat.le_refl _⟩

theorem State.remembers_putBits {s : State} {p : Params} {key : Key} (hi : s.init = true)
    (hc : s.mightContain (keyHash64 p key) = true) (h : Word) : s.Remembers (s.putBits h) p key :=
  ⟨by simpa using hi, s.mightContain_putBits_of_mightContain hc h, by simp⟩

theorem State.Inv.remembers_count {s : State} (hs : s.Inv) {p : Params} {key : Key} (hi : s.init = true)
    (hc : s.mightContain (keyHash64 p key) = true) {ident : U32}
    (hquiet : ¬ (s.acceptable (slots p ident s.blockMask) ∧ s.atSample)) :
    s.Remembers (s.count (slots p ident s.blockMask)) p key :=
  ⟨by simpa using hi, by simpa using hc, hs.leastCounter_le_count hquiet key⟩

/-- A contained key whose `INCR` does not age is counted without aging. -/
theorem State.not_ages_of_not_forgetsOn {s : State} {key : Key}
    (hc : s.mightContain (keyHash64 Config.params key) = true) (hquiet : ¬ s.forgetsOn (.incr key)) :
    ¬ (s.acceptable (slots Config.params key.ident s.blockMask) ∧ s.atSample) :=
  fun hage => hquiet ⟨hc, hage⟩

/-- An `ENSURE` that does not grow changes nothing. -/
theorem State.ensureCapacity_of_not_forgetsOn {s : State} {ms : Word} (hi : s.init = true) (hms : 0 ≤ ms.toInt)
    (hquiet : ¬ s.forgetsOn (.ensure ms)) : s.ensureCapacity ms.toNat = s := by
  have hle : min ms.toNat capMax ≤ s.tableLen := Nat.not_lt.mp fun hlt => hquiet ⟨hms, hlt⟩
  exact State.ensureCapacity_of_covers (by simpa [State.covers, hi] using hle)

/-- Every command that neither ages nor grows. -/
theorem State.Inv.remembers_exec {s t : State} (hs : s.Inv) {i : Instr} {key : Key} (hi : s.init = true)
    (hc : s.mightContain (keyHash64 Config.params key) = true) (hquiet : ¬ s.forgetsOn i) (e : exec i s = .next t) :
    s.Remembers t Config.params key := by
  by_cases hincr : ∃ k, i = .incr k
  · obtain ⟨k, rfl⟩ := hincr
    cases hk : s.mightContain (keyHash64 Config.params k) with
    | false =>
      cases (hs.increment_of_new hi hk).symm.trans e
      exact (State.remembers_putBits hi hc _).respond _ _
    | true =>
      cases (hs.increment_of_contained hi hk).symm.trans e
      exact (hs.remembers_count hi hc (State.not_ages_of_not_forgetsOn hk hquiet)).respond _ _
  · obtain ⟨u, st, v, he, rfl⟩ := exec_effect e
    cases he with
    | unchanged => exact (State.remembers_self hi hc).respond st v
    | put h => exact (State.remembers_putBits hi hc h).respond st v
    | ensured ms hms =>
      rw [State.ensureCapacity_of_not_forgetsOn hi hms hquiet]
      exact (State.remembers_self hi hc).respond st v
    | doorkept k _ => exact absurd ⟨k, rfl⟩ hincr
    | counted k _ => exact absurd ⟨k, rfl⟩ hincr

/-- An `INCR` of the key itself that does not age raises its least counter by one, up to 15. -/
theorem State.Inv.leastCounter_exec_incr {s t : State} (hs : s.Inv) {key : Key} (hi : s.init = true)
    (hc : s.mightContain (keyHash64 Config.params key) = true) (hquiet : ¬ s.forgetsOn (.incr key))
    (e : exec (.incr key) s = .next t) :
    t.leastCounter Config.params key = min (s.leastCounter Config.params key + 1) 15 := by
  cases (hs.increment_of_contained hi hc).symm.trans e
  exact hs.leastCounter_count_self (State.not_ages_of_not_forgetsOn hc hquiet)

/-! ### Several commands -/

/-- Over a quiet run the least counter rises at least by the number of `INCR` of the key, up to 15. -/
theorem State.Inv.remembers_run {key : Key} (cmds : List Instr) {s t : State} (hs : s.Inv) (hi : s.init = true)
    (hc : s.mightContain (keyHash64 Config.params key) = true) (hrun : s.runsQuietly cmds t) :
    t.Inv ∧ s.Remembers t Config.params key ∧
      min (s.leastCounter Config.params key + cmds.count (.incr key)) 15 ≤ t.leastCounter Config.params key := by
  induction cmds generalizing s with
  | nil =>
    cases hrun
    exact ⟨hs, State.remembers_self hi hc, by simp⟩
  | cons i rest ih =>
    obtain ⟨hquiet, u, hu, hrest⟩ := hrun
    obtain ⟨hui, huc, hul⟩ := hs.remembers_exec hi hc hquiet hu
    obtain ⟨ht, ⟨hti, htc, htl⟩, hcount⟩ := ih (exec_inv hs hu) hui huc hrest
    refine ⟨ht, ⟨hti, htc, hul.trans htl⟩, ?_⟩
    by_cases hincr : i = .incr key
    · subst hincr
      have hself := hs.leastCounter_exec_incr hi hc hquiet hu
      rw [List.count_cons_self]
      omega
    · rw [List.count_cons_of_ne hincr]
      omega

/-- `execTimes` of one command more, where the first goes on. -/
theorem execTimes_succ {i : Instr} {s u : State} (e : exec i s = .next u) (n : Nat) :
    execTimes i (n + 1) s = execTimes i n u := by
  rw [execTimes, e]

/-- Counting leaves the sample size, and raises `size` by at most one. -/
theorem State.Inv.size_count_le {s : State} (hs : s.Inv) {p : Params} {ident : U32}
    (hquiet : ¬ (s.acceptable (slots p ident s.blockMask) ∧ s.atSample)) :
    (s.count (slots p ident s.blockMask)).size.toNat ≤ s.size.toNat + 1 := by
  by_cases hacc : s.acceptable (slots p ident s.blockMask)
  · rw [hs.count_of_not_atSample hacc fun hsample => hquiet ⟨hacc, hsample⟩]
    exact (Machine.nextSize_toNat s.size).trans_le (Nat.min_le_left _ _)
  · rw [hs.count_of_not_acceptable hacc]
    exact Nat.le_succ _

/-- `n` occurrences in a row, too few to reach the sample size, raise the least counter by `n`, up to 15. -/
theorem State.Inv.leastCounter_execTimes {key : Key} (n : Nat) {s : State} (hs : s.Inv) (hi : s.init = true)
    (hc : s.mightContain (keyHash64 Config.params key) = true)
    (hfew : s.unbounded = true ∨ s.size.toNat + n < s.sampleSize.toNat) : ∃ t : State,
      execTimes (.incr key) n s = .next t ∧ t.Inv ∧ t.mightContain (keyHash64 Config.params key) = true ∧
        t.leastCounter Config.params key = min (s.leastCounter Config.params key + n) 15 := by
  induction n generalizing s with
  | zero => exact ⟨s, rfl, hs, hc, (min_eq_left (s.leastCounter_le _ key)).symm⟩
  | succ n ih =>
    have hsample : ¬ s.atSample := by
      rintro ⟨hu, hsz⟩
      rcases hfew with hu' | hlt
      · simp [hu] at hu'
      · rw [hs.sizePlusOne_of_bounded hi hu] at hsz
        omega
    have hquiet : ¬ s.forgetsOn (.incr key) := fun ⟨_, _, hage⟩ => hsample hage
    have hages := State.not_ages_of_not_forgetsOn hc hquiet
    have hu := hs.exec_incr_of_contained hi hc
    have hsize := hs.size_count_le hages
    obtain ⟨t, ht, htinv, htc, htl⟩ := ih (exec_inv hs hu) (by simpa using hi) (by simpa using hc)
      (by simpa using hfew.imp_right fun hlt => show _ + n < s.sampleSize.toNat by omega)
    refine ⟨t, (execTimes_succ hu n).trans ht, htinv, htc, ?_⟩
    rw [htl, hs.leastCounter_exec_incr hi hc hquiet hu]
    omega

/-! ### The statements -/

/-- Settles O23: `frequency` by whether the filter contains the key; the least counter is one of the key's. -/
theorem freqAnswersTheEstimate : Obligations.FreqAnswersTheEstimate := by
  intro key s hs
  refine ⟨fun hi => hs.frequency_of_absent (hs.not_contains_of_uninitialised hi _), hs.frequency_of_absent, fun hc => ?_⟩
  exact ⟨s.leastCounter Config.params key, fun x hx => s.leastCounter_le_of_mem hx, s.exists_leastCounter _ key,
    hs.frequency_of_contained hc⟩

/-- Settles O25: the least counter is at most 15. -/
theorem freqAnswersAtMostSixteen : Obligations.FreqAnswersAtMostSixteen := by
  intro key s hs
  cases hc : s.mightContain (keyHash64 Config.params key) with
  | false => exact ⟨0, by decide, hs.frequency_of_absent hc⟩
  | true => exact ⟨_, Nat.succ_le_succ (s.leastCounter_le Config.params key), hs.frequency_of_contained hc⟩

/-- Settles O58: the step that `Remembers` describes, and the key's own `INCR`. -/
theorem noQuietCommandLowersAnEstimate : Obligations.NoQuietCommandLowersAnEstimate := by
  intro i key m s t hs hi hc hm hfreq hquiet e
  obtain rfl := hs.leastCounter_eq_of_freq hc hm hfreq
  obtain ⟨hti, htc, htl⟩ := hs.remembers_exec hi hc hquiet e
  refine ⟨hti, htc, _, htl, t.leastCounter_le _ key, fun hincr => ?_, (exec_inv hs e).frequency_of_contained htc⟩
  subst hincr
  exact hs.leastCounter_exec_incr hi hc hquiet e

/-- Settles O59: over the run the least counter rises at least by the count of `INCR` of the key. -/
theorem noUndercountBetweenAgings : Obligations.NoUndercountBetweenAgings := by
  intro key cmds s t hs hi hc hrun
  obtain ⟨ht, ⟨-, htc, -⟩, hcount⟩ := hs.remembers_run cmds hi hc hrun
  have hle := t.leastCounter_le Config.params key
  exact ⟨_, by omega, Nat.succ_le_succ hle, ht.frequency_of_contained htc⟩

/-- Settles O31: the least counter after `n` occurrences in a row. -/
theorem repeatedIncrementsRaiseTheEstimate : Obligations.RepeatedIncrementsRaiseTheEstimate := by
  intro key n m s hs hi hc hfew hm hfreq
  obtain rfl := hs.leastCounter_eq_of_freq hc hm hfreq
  obtain ⟨t, ht, htinv, htc, htl⟩ := hs.leastCounter_execTimes n hi hc hfew
  exact ⟨t, ht, htl ▸ htinv.frequency_of_contained htc, by omega⟩

/-- Settles O33: the second key's words lie in another block, and the filter is as it was. -/
theorem keysOfOtherBlocksDoNotInterfere : Obligations.KeysOfOtherBlocksDoNotInterfere := by
  intro p k1 k2 s t hs hi hc hsample hblock e
  cases (hs.increment_of_contained hi hc).symm.trans e
  have hleast := hs.leastCounter_count_of_blockBase_ne (fun hage => hsample hage.2) hblock
  have ht := (hs.count hi p k1.ident).respond .ok 0
  cases hc2 : s.mightContain (keyHash64 p k2) with
  | false => exact ⟨_, hs.frequency_of_absent hc2, ht.frequency_of_absent (by simpa using hc2)⟩
  | true =>
    refine ⟨_, hs.frequency_of_contained hc2, ?_⟩
    rw [ht.frequency_of_contained (by simpa using hc2), State.leastCounter_respond, hleast]

/-- Settles O60: half of a number that is not zero is smaller, and the counter that the increment raised is not zero. -/
theorem agingShrinksEveryNonzeroCounter : Obligations.AgingShrinksEveryNonzeroCounter := by
  rintro key s hs hi ⟨hc, hacc, hsample⟩
  have e := hs.exec_incr_of_contained hi hc
  refine ⟨_, e, State.count_bits s _, fun j c hlt hpos => ?_, ?_, fun other hother => ?_⟩
  · rw [State.respond_table, hs.counter_count_of_atSample hi hacc hsample j hlt]
    exact Nat.div_lt_self hpos (by decide)
  · obtain ⟨x, hx, -⟩ := hacc
    exact ⟨x, hx, by rw [s.raised_of_mem hx]; omega⟩
  · have hle := State.leastCounter_le ((s.count (slots Config.params key.ident s.blockMask)).respond .ok 0)
      Config.params other
    exact ⟨_, Nat.succ_pos _, Nat.succ_le_succ hle, (exec_inv hs e).frequency_of_contained (by simpa using hother)⟩

end Sys2Proof.Machine

/-! # A key's first two occurrences: the statement about 42_sketch.md R153 item 3

A freshly sized engine has counted nothing and its filter contains no key, so a key's first `INCR` only sets filter bits
and its second is the first one counted. -/

namespace Sys2Proof.Machine

/-- Nothing counted since the table was built; the sample size is even, hence not 1. -/
structure State.Uncounted (s : State) : Prop where
  inv : s.Inv
  init : s.init = true
  table : s.table = []
  size : s.size = 0
  even : s.sampleSize.toNat % 2 = 0

theorem State.Uncounted.respond {s : State} (h : s.Uncounted) (st : Status) (v : Word) :
    (s.respond st v).Uncounted :=
  ⟨h.inv.respond st v, h.init, h.table, h.size, h.even⟩

theorem State.Uncounted.putBits {s : State} (h : s.Uncounted) (k : Word) : (s.putBits k).Uncounted :=
  ⟨h.inv.putBits k, by simpa using h.init, by simpa using h.table, by simpa using h.size, by simpa using h.even⟩

/-- The first `ENSURE` builds a table of zeros and a filter with no bit set (R145, R146). -/
theorem State.uncounted_ensureCapacity_reset (n : Nat) :
    (State.reset.ensureCapacity n).Uncounted ∧ (State.reset.ensureCapacity n).bits = [] := by
  have hinv := State.reset_inv.ensureCapacity n
  have heq := State.reset_inv.ensureCapacity_eq n
  rw [if_neg (by simp [State.covers, State.reset])] at heq
  rw [heq] at hinv ⊢
  exact ⟨⟨hinv, rfl, rfl, rfl, sampleSizeFor_even _⟩, rfl⟩

/-- A filter with no bit set contains nothing, since it has probes. -/
theorem State.Inv.mightContain_of_no_bits {s : State} (hs : s.Inv) (hbits : s.bits = []) (h : Word) :
    s.mightContain h = false := by
  by_contra hc
  obtain ⟨hf, hall⟩ := (s.mightContain_iff_probe h).mp (by simpa using hc)
  have hk : 0 < s.fltK := by
    rw [(hs.geometry hf).2]
    decide
  simpa [hbits] using hall 0 hk

theorem State.Uncounted.leastCounter_eq {s : State} (h : s.Uncounted) (p : Params) (key : Key) :
    s.leastCounter p key = 0 :=
  State.leastCounter_of_empty h.table p key

theorem State.Uncounted.acceptable {s : State} (h : s.Uncounted) (p : Params) (key : Key) :
    s.acceptable (slots p key.ident s.blockMask) := by
  obtain ⟨x, hx, hmin⟩ := s.exists_leastCounter p key
  have hzero := h.leastCounter_eq p key
  exact ⟨x, hx, by omega⟩

theorem State.Uncounted.sizePlusOne {s : State} (h : s.Uncounted) : s.sizePlusOne = 1 := by
  simp [State.sizePlusOne, h.size]

theorem State.Uncounted.not_atSample {s : State} (h : s.Uncounted) : ¬ s.atSample := by
  rintro ⟨-, hsample⟩
  have heven := h.even
  have hone := h.sizePlusOne
  omega

/-- Counting the first occurrence makes `size` 1 and the key's least counter 1. -/
theorem State.Uncounted.size_count {s : State} (h : s.Uncounted) (p : Params) (key : Key) :
    (s.count (slots p key.ident s.blockMask)).size = 1 := by
  rw [h.inv.count_of_not_atSample (h.acceptable p key) h.not_atSample]
  exact BitVec.eq_of_toNat_eq (s.sizePlusOne_eq.symm.trans h.sizePlusOne)

theorem State.Uncounted.leastCounter_count {s : State} (h : s.Uncounted) (p : Params) (key : Key) :
    (s.count (slots p key.ident s.blockMask)).leastCounter p key = 1 := by
  rw [h.inv.leastCounter_count_self fun hage => h.not_atSample hage.2, h.leastCounter_eq]
  rfl

/-- Settles O32: the first `INCR` finds a new key, the second a contained key that nothing has counted. -/
theorem firstTwoOccurrencesReadOneThenTwo : Obligations.FirstTwoOccurrencesReadOneThenTwo := by
  intro ms key hms
  obtain ⟨hfresh, hbits⟩ := State.uncounted_ensureCapacity_reset ms.toNat
  have hensure := execEnsure_of_nonneg State.reset hms
  generalize State.reset.ensureCapacity ms.toNat = u at hfresh hbits hensure
  have h0 := hfresh.respond .ok 0
  have hf : u.fltInit = true := hfresh.inv.filterInit.trans hfresh.init
  have hnew := h0.inv.mightContain_of_no_bits hbits (keyHash64 Config.params key)
  have h1 := (h0.putBits (keyHash64 Config.params key)).respond .ok 0
  have hc1 := State.mightContain_putBits (u.respond .ok 0) (keyHash64 Config.params key) hf
  have hincr2 := h1.inv.exec_incr_of_contained h1.init hc1
  refine ⟨_, _, _, hensure, h0.inv.increment_of_new h0.init hnew, h1.table.trans h0.table.symm, h1.size, ?_, hincr2,
    h1.size_count Config.params key, ?_⟩
  · refine (h1.inv.frequency_of_contained hc1).trans ?_
    rw [h1.leastCounter_eq]
    rfl
  · refine ((exec_inv h1.inv hincr2).frequency_of_contained ((State.mightContain_count _ _ _).trans hc1)).trans ?_
    rw [State.leastCounter_respond, h1.leastCounter_count]
    rfl

end Sys2Proof.Machine

/-! # Status and read-out: the statements about 43_status.md

Each read-out command answers one word of the state, which its bits describe, or `ERR_RANGE` where the index lies
outside the space read. -/

namespace Sys2Proof.Machine

/-! ### The words answered, bit by bit (R31, R50, R172) -/

/-- The three bits of `STATUS`; bits 63:3 are zero (R31). -/
theorem State.statusWord_getLsbD (s : State) (b : Nat) :
    s.statusWord.getLsbD b =
      if b = 0 then s.init else if b = 1 then s.unbounded else if b = 2 then s.fltInit else false := by
  simp only [State.statusWord, BitVec.getLsbD_append]
  match b with
  | 0 | 1 | 2 => simp
  | d + 3 => simp

theorem Memory.readWord_getLsbD (m : Memory) (i : Nat) {t b : Nat} (ht : t < 8) (hb : b < 8) :
    (m.readWord i).getLsbD (8 * t + b) = (m.read (8 * i + t)).getLsbD b :=
  wordOfBytes_getLsbD _ t b ht hb

theorem State.filterGroup_getLsbD_iff (s : State) (q : Nat) {t : Nat} (ht : t < 64) :
    (s.filterGroup q).getLsbD t = true ↔ 64 * q + t < s.fltM ∧ 64 * q + t ∈ s.bits := by
  rw [s.filterGroup_getLsbD q t ht, Bool.and_eq_true, decide_eq_true_iff, BitArray.isSet_iff]

/-! ### What the commands answer (R170 to R172) -/

theorem exec_rdsr_of_some {r : U32} {s : State} {v : Word} (h : s.statusRegister r.toNat = some v) :
    exec (.rdsr r) s = .next (s.respond .ok v) := by
  simp [exec, execRdsr, h, State.answer]

theorem exec_rdsr_of_none {r : U32} {s : State} (h : s.statusRegister r.toNat = none) :
    exec (.rdsr r) s = .next (s.respond .range 0) := by
  simp [exec, execRdsr, h, State.raiseError]

theorem exec_rdtbl_outside {idx : U32} {s : State} (h : s.init = false ∨ s.tableLen ≤ idx.toNat) :
    exec (.rdtbl idx) s = .next (s.respond .range 0) :=
  if_pos (by simpa using h)

theorem exec_rdtbl_inside {idx : U32} {s : State} (hi : s.init = true) (hlt : idx.toNat < s.tableLen) :
    exec (.rdtbl idx) s = .next (s.respond .ok (s.table.readWord idx.toNat)) :=
  if_neg (by simp [hi, hlt])

theorem exec_rdflt_outside {q : U32} {s : State} (h : s.fltInit = false ∨ s.fltM ≤ 64 * q.toNat) :
    exec (.rdflt q) s = .next (s.respond .range 0) :=
  if_pos (by simpa using h)

theorem exec_rdflt_inside {q : U32} {s : State} (hf : s.fltInit = true) (hlt : 64 * q.toNat < s.fltM) :
    exec (.rdflt q) s = .next (s.respond .ok (s.filterGroup q.toNat)) :=
  if_neg (by simp [hf, hlt])

/-! ### The statements -/

/-- Settles O36: inside the table the answer is the table word, whose bytes are those of the byte view. -/
theorem rdtblAnswersTheWord : Obligations.RdtblAnswersTheWord := fun _ s =>
  ⟨exec_rdtbl_outside, fun hi hlt =>
    ⟨_, exec_rdtbl_inside hi hlt, fun _ ht _ hb => s.table.readWord_getLsbD _ ht hb⟩⟩

/-- Settles O37: inside the bit array the answer is the group, whose bits are the filter's below `fltM`. -/
theorem rdfltAnswersTheGroup : Obligations.RdfltAnswersTheGroup := fun _ s =>
  ⟨exec_rdflt_outside, fun hf hlt =>
    ⟨_, exec_rdflt_inside hf hlt, fun _ ht => s.filterGroup_getLsbD_iff _ ht⟩⟩

/-- Settles O34: `SR[0]` by its bits, the other seven as the register file gives them, and no register from 8 up. -/
theorem rdsrAnswersTheRegister : Obligations.RdsrAnswersTheRegister := by
  intro s
  refine ⟨⟨s.statusWord, exec_rdsr_of_some rfl, s.statusWord_getLsbD 0, s.statusWord_getLsbD 1,
    s.statusWord_getLsbD 2, fun b hb => ?_⟩, exec_rdsr_of_some rfl, exec_rdsr_of_some rfl, exec_rdsr_of_some rfl,
    exec_rdsr_of_some rfl, exec_rdsr_of_some rfl, exec_rdsr_of_some rfl, exec_rdsr_of_some rfl, fun r hr => ?_⟩
  · rw [s.statusWord_getLsbD, if_neg (by omega), if_neg (by omega), if_neg (by omega)]
  · exact exec_rdsr_of_none ((s.statusRegister_eq_none _).mpr hr)

end Sys2Proof.Machine

/-! # Frame laws: the statement about 44_laws.md R165

What a command leaves unchanged is read off its `Effect`. -/

namespace Sys2Proof.Machine

/-! ### What an effect leaves unchanged -/

@[simp] theorem State.ensureCapacity_inputs (s : State) (ms : Nat) : (s.ensureCapacity ms).inputs = s.inputs := by
  unfold State.ensureCapacity
  split
  · rfl
  · rw [State.buildTable_inputs, State.filterEnsure_inputs]

/-- The host's pending events are no command's. -/
theorem Effect.inputs_eq {s u : State} {i : Instr} (he : Effect s i u) : u.inputs = s.inputs := by
  cases he with
  | unchanged => rfl
  | put h => exact State.putBits_inputs s h
  | ensured ms _ => exact State.ensureCapacity_inputs s ms.toNat
  | doorkept key _ => exact State.putBits_inputs s _
  | counted key _ => rw [State.count_inputs, State.putBits_inputs]

/-- The frame of every command but `ENSURE`: the table, `size`, the filter's bits and the response (R165). -/
theorem Effect.respond_eq_of_not_ensure {s u : State} {i : Instr} (he : Effect s i u) (hi : ∀ ms, i ≠ .ensure ms)
    (st : Status) (v : Word) :
    u.respond st v =
      { s with table := u.table, size := u.size, bits := u.bits, responses := u.responses ++ [⟨st.word, v⟩] } := by
  have hput (h : Word) : (s.putBits h).respond st v =
      { s with
        table := (s.putBits h).table
        size := (s.putBits h).size
        bits := (s.putBits h).bits
        responses := (s.putBits h).responses ++ [⟨st.word, v⟩] } := by
    rw [State.putBits_respond_eq, State.putBits_table, State.putBits_size, State.putBits_responses]
  cases he with
  | unchanged => rfl
  | put h => exact hput h
  | ensured ms _ => exact absurd rfl (hi ms)
  | doorkept key _ => exact hput _
  | counted key _ =>
    rw [State.count_respond_eq]
    simp

/-- `FPUT` writes no counter and not `size` (R129, R165). -/
theorem Effect.table_size_of_fput {s u : State} {h : Word} (he : Effect s (.fput h) u) :
    u.table = s.table ∧ u.size = s.size := by
  cases he with
  | unchanged => exact ⟨rfl, rfl⟩
  | put => exact ⟨State.putBits_table s h, State.putBits_size s h⟩

/-! ### The statement -/

/-- Settles O39: the response adds nothing to what the command's effect writes. -/
theorem onlyEnsureWritesTheGeometry : Obligations.OnlyEnsureWritesTheGeometry := by
  intro i s t e
  obtain ⟨u, st, v, he, rfl⟩ := exec_effect e
  refine ⟨he.inputs_eq, fun hi => he.respond_eq_of_not_ensure hi st v, ?_⟩
  rintro h rfl
  exact he.table_size_of_fput

end Sys2Proof.Machine

/-! # Exceptions: the statements about 60_exceptions.md

`commandStatus` and `packetStatus` say once which code a command and a packet get. Every response that a step returns
carries that code, so the causes of a code are those of `packetStatus`. -/

namespace Sys2Proof.Machine

/-! ### The status codes (R181) -/

theorem Status.word_injective : Function.Injective Status.word := by
  intro a b
  cases a <;> cases b <;> decide

theorem Status.word_eq_zero_iff {st : Status} : st.word = 0 ↔ st = .ok := Status.word_injective.eq_iff (b := .ok)

theorem Status.word_cases (st : Status) : st.word = 0 ∨ st.word = 1 ∨ st.word = 2 ∨ st.word = 3 := by
  cases st <;> decide

/-! ### The status of a command (R183, R184) -/

/-- The status with which a command ends: `ERR_ARG` for `ENSURE` of a negative operand, `ERR_RANGE` for a read-out index
outside its space, success for all else. -/
def State.commandStatus (s : State) : Instr → Status
  | .ensure ms => if ms.toInt < 0 then .arg else .ok
  | .rdsr n => if 8 ≤ n.toNat then .range else .ok
  | .rdtbl n => if s.init = false ∨ s.tableLen ≤ n.toNat then .range else .ok
  | .rdflt n => if s.fltInit = false ∨ s.fltM ≤ 64 * n.toNat then .range else .ok
  | _ => .ok

/-- The host's events have no part in the status. -/
@[simp] theorem State.commandStatus_take (s : State) (rest : List Input) (i : Instr) :
    (s.take rest).commandStatus i = s.commandStatus i := by
  cases i <;> rfl

theorem State.commandStatus_ne_illegal (s : State) (i : Instr) : s.commandStatus i ≠ .illegal := by
  cases i <;> simp [State.commandStatus, ite_eq_iff]

theorem State.commandStatus_eq_arg_iff {s : State} {i : Instr} :
    s.commandStatus i = .arg ↔ ∃ ms, i = .ensure ms ∧ ms.toInt < 0 := by
  cases i <;> simp [State.commandStatus, ite_eq_iff]

theorem State.commandStatus_eq_range_iff {s : State} {i : Instr} :
    s.commandStatus i = .range ↔ (∃ n, i = .rdsr n ∧ 8 ≤ n.toNat) ∨
      (∃ n, i = .rdtbl n ∧ (s.init = false ∨ s.tableLen ≤ n.toNat)) ∨
      ∃ n, i = .rdflt n ∧ (s.fltInit = false ∨ s.fltM ≤ 64 * n.toNat) := by
  cases i <;> simp [State.commandStatus, ite_eq_iff, -ite_eq_left_iff]

@[simp] theorem State.ensureCapacity_responses (s : State) (ms : Nat) :
    (s.ensureCapacity ms).responses = s.responses := by
  unfold State.ensureCapacity
  split
  · rfl
  · rw [State.buildTable_responses, State.filterEnsure_responses]

/-- A command that goes on answers with its status. -/
theorem exec_answers_status {i : Instr} {s t : State} (e : exec i s = .next t) :
    ∃ v, t.responses = s.responses ++ [⟨(s.commandStatus i).word, v⟩] := by
  cases i with
  | spread x => cases e; exact ⟨_, rfl⟩
  | rehash x => cases e; exact ⟨_, rfl⟩
  | hash64 seed bytes => cases e; exact ⟨_, rfl⟩
  | hashstr absent bytes => cases e; exact ⟨_, rfl⟩
  | hashid x => cases e; exact ⟨_, rfl⟩
  | isninit => cases e; exact ⟨_, rfl⟩
  | ftest h =>
    obtain ⟨-, rfl⟩ := execFtest_next e
    exact ⟨_, rfl⟩
  | fput h =>
    obtain ⟨-, rfl⟩ := execFput_next e
    exact ⟨_, by rw [State.respond_responses, State.putBits_responses]; rfl⟩
  | incr key =>
    rcases increment_next e with ⟨-, rfl⟩ | ⟨-, -, rfl⟩ | ⟨-, -, -, rfl⟩ <;> exact ⟨0, by simp [State.commandStatus]⟩
  | freq key =>
    rcases frequency_next e with ⟨-, rfl⟩ | ⟨-, -, rfl⟩ | ⟨-, -, -, rfl⟩ <;> exact ⟨_, rfl⟩
  | ensure ms =>
    rcases execEnsure_next e with ⟨hms, rfl⟩ | ⟨hms, rfl⟩
    · exact ⟨0, by simp [State.commandStatus, hms]⟩
    · exact ⟨0, by simp [State.commandStatus, not_lt.mpr hms]⟩
  | rdsr n =>
    rcases execRdsr_next e with ⟨v, hv, rfl⟩ | ⟨hn, rfl⟩
    · have hlt : ¬ 8 ≤ n.toNat := by simp [← s.statusRegister_eq_none, hv]
      exact ⟨v, by simp [State.commandStatus, hlt]⟩
    · exact ⟨0, by simp [State.commandStatus, (s.statusRegister_eq_none _).mp hn]⟩
  | rdtbl n =>
    rcases execRdtbl_next e with ⟨hout, rfl⟩ | ⟨hi, hlt, rfl⟩
    · exact ⟨0, by simp [State.commandStatus, hout]⟩
    · exact ⟨s.table.readWord n.toNat, by simp [State.commandStatus, hi, not_le.mpr hlt]⟩
  | rdflt n =>
    rcases execRdflt_next e with ⟨hout, rfl⟩ | ⟨hf, hlt, rfl⟩
    · exact ⟨0, by simp [State.commandStatus, hout]⟩
    · exact ⟨s.filterGroup n.toNat, by simp [State.commandStatus, hf, not_le.mpr hlt]⟩

/-! ### The status of a packet (R182) -/

/-- The status with which a packet is answered: that of its command, or `ERR_ILLEGAL` where the decoder finds none. -/
def State.packetStatus (s : State) (pk : Packet) : Status :=
  match decode Config.params pk with
  | .ok i => s.commandStatus i
  | .error _ => .illegal

theorem State.packetStatus_of_ok {s : State} {pk : Packet} {i : Instr} (hd : decode Config.params pk = .ok i) :
    s.packetStatus pk = s.commandStatus i := by
  simp [State.packetStatus, hd]

theorem State.packetStatus_of_error {s : State} {pk : Packet} {e : Illegal} (hd : decode Config.params pk = .error e) :
    s.packetStatus pk = .illegal := by
  simp [State.packetStatus, hd]

theorem State.packetStatus_eq_illegal_iff {s : State} {pk : Packet} :
    s.packetStatus pk = .illegal ↔ ∃ e, decode Config.params pk = .error e := by
  cases hd : decode Config.params pk with
  | ok i => simp [State.packetStatus_of_ok hd, s.commandStatus_ne_illegal]
  | error e => simp [State.packetStatus_of_error hd]

theorem State.packetStatus_eq_arg_iff {s : State} {pk : Packet} :
    s.packetStatus pk = .arg ↔ ∃ ms : Word, decode Config.params pk = .ok (.ensure ms) ∧ ms.toInt < 0 := by
  cases hd : decode Config.params pk with
  | ok i => simp [State.packetStatus_of_ok hd, State.commandStatus_eq_arg_iff]
  | error e => simp [State.packetStatus_of_error hd]

theorem State.packetStatus_eq_range_iff {s : State} {pk : Packet} :
    s.packetStatus pk = .range ↔
      (∃ n : U32, decode Config.params pk = .ok (.rdsr n) ∧ 8 ≤ n.toNat) ∨
        (∃ n : U32, decode Config.params pk = .ok (.rdtbl n) ∧ (s.init = false ∨ s.tableLen ≤ n.toNat)) ∨
          ∃ n : U32, decode Config.params pk = .ok (.rdflt n) ∧ (s.fltInit = false ∨ s.fltM ≤ 64 * n.toNat) := by
  cases hd : decode Config.params pk with
  | ok i => simp [State.packetStatus_of_ok hd, State.commandStatus_eq_range_iff]
  | error e => simp [State.packetStatus_of_error hd]

/-- A step over a packet that goes on answers it with its status. -/
theorem step_answers_packetStatus {s t : State} {pk : Packet} {rest : List Input}
    (hin : s.inputs = .packet pk :: rest) (e : step s = .next t) :
    ∃ v, t.responses = s.responses ++ [⟨(s.packetStatus pk).word, v⟩] := by
  cases hd : decode Config.params pk with
  | ok i =>
    rw [step_decoded hin (decodePacket_eq_some_iff.mpr hd)] at e
    simpa [State.packetStatus_of_ok hd] using exec_answers_status e
  | error err =>
    rw [step_rejected hin (decodePacket_eq_none_of_error hd)] at e
    cases e
    exact ⟨0, by simp [State.packetStatus_of_error hd]⟩

/-! ### What an error leaves unchanged (R180) -/

/-- Taking the event and returning the response is no change of the engine. -/
theorem State.sameEngine_take_respond (s : State) (rest : List Input) (st : Status) (v : Word) :
    s.sameEngine ((s.take rest).respond st v) := rfl

/-! ### The statements -/

/-- Settles O40: a command answers once and an error is raised in the state it found; a rejected packet is one. -/
theorem errorsLeaveTheEngineUnchanged : Obligations.ErrorsLeaveTheEngineUnchanged := by
  intro s t pk rest hin e
  cases hd : decodePacket pk with
  | some i =>
    rw [step_decoded hin hd] at e
    obtain ⟨u, st, v, rfl, hres, hinp, herr⟩ := exec_responds e
    refine ⟨⟨st.word, v⟩, by simp [hres], by simp [hinp], fun hne => ?_⟩
    obtain ⟨rfl, rfl⟩ := herr (mt Status.word_eq_zero_iff.mpr hne)
    exact ⟨rfl, s.sameEngine_take_respond rest st 0⟩
  | none =>
    rw [step_rejected hin hd] at e
    cases e
    exact ⟨_, rfl, rfl, fun _ => ⟨rfl, s.sameEngine_take_respond rest .illegal 0⟩⟩

/-- Settles O41: the one response of O40 carries the packet's status, and each code's causes are those of
`packetStatus`. -/
theorem eachStatusHasItsCause : Obligations.EachStatusHasItsCause := by
  intro s t pk rest hin e
  obtain ⟨r, hr, -, hunchanged⟩ := errorsLeaveTheEngineUnchanged s t pk rest hin e
  obtain ⟨v, hv⟩ := step_answers_packetStatus hin e
  obtain rfl : r = ⟨(s.packetStatus pk).word, v⟩ := by simpa [hr] using hv
  have hcode (st : Status) : (s.packetStatus pk).word = st.word ↔ s.packetStatus pk = st :=
    Status.word_injective.eq_iff
  refine ⟨_, hr, ?_, hunchanged, (hcode .illegal).trans State.packetStatus_eq_illegal_iff,
    (hcode .arg).trans State.packetStatus_eq_arg_iff, (hcode .range).trans State.packetStatus_eq_range_iff⟩
  exact (s.packetStatus pk).word_cases

/-- Settles O53. -/
theorem idleEngineHoldsItsState : Obligations.IdleEngineHoldsItsState := fun _ hin => step_idle hin

end Sys2Proof.Machine

/-! # Reset and hazards: the statements about 70_reset_and_hazards.md

Growth and the reset input forget. What an `ENSURE` does by whether it grows is said under R144 to R146; a table that it
builds reads as zeros, so it is the empty one, and a filter with no bit set contains no key. -/

namespace Sys2Proof.Machine

/-- A canonical memory that reads as zeros lists no byte. -/
theorem Memory.eq_nil_of_read_zero {m : Memory} (hm : m.wf = true) (hz : ∀ a, m.read a = 0) : m = [] :=
  Memory.ext_read hm Memory.wf_nil fun a => (hz a).trans (Memory.read_nil a).symm

theorem State.Inv.exec_freq_of_no_bits {s : State} (hs : s.Inv) (hbits : s.bits = []) (key : Key) :
    exec (.freq key) s = .next (s.respond .ok 0) :=
  hs.frequency_of_absent (hs.mightContain_of_no_bits hbits _)

/-! ### The statements -/

/-- Settles O19: an `ENSURE` that grows leaves the state of O17, which is good; one that does not is a case of O16. -/
theorem growthForgetsEverything : Obligations.GrowthForgetsEverything := by
  refine fun ms s hs hi hms => ⟨fun hgrow => ?_, fun hcover => ?_⟩
  · obtain ⟨t, hexec, -, -, -, hsize, -, -, hread, -, -, -, hbits, -⟩ :=
      ensureBuildsTableAndFilter ms s hs hms (.inr hgrow)
    have ht : t.Inv := exec_inv hs hexec
    have htable : t.table = [] := Memory.eq_nil_of_read_zero ht.tableCanonical.1 hread
    refine ⟨t, hexec, ht.exec_freq_of_no_bits hbits, fun j c => ?_, hsize, hbits⟩
    rw [htable, Memory.readWord_nil, counter_zero]
  · obtain ⟨-, -, hcovered, -⟩ := ensureChecksClampsAndCovers ms s
    exact hcovered hms hi hcover

/-- Settles O52: both forms of reset take the event off the port and reset the engine; that the later events and the
earlier responses stay is the model's choice (log entry 3). -/
theorem resetInputDiscardsEverything : Obligations.ResetInputDiscardsEverything := by
  rintro s rest pk (hin | hin)
  · exact step_reset hin
  · exact step_resetDuring hin

end Sys2Proof.Machine
